-- ==== Sys2Proof/Word.lean ====
section
/-! DEFINITION. The word types of the subflow CRC-8 core: the byte of the accumulator and of `din`, and the 11-bit input
word of the ports (30_encoding.md R50). -/

namespace Sys2Proof

/-- A byte: an unsigned integer 0 to 255, bit 0 the least significant (00_scope.md section 6, 40_datapath.md R60). -/
abbrev Byte := BitVec 8

/-- The input word `IW`, the 11 bits `{rst, clr, vld, din[7:0]}` sampled at one rising edge (30_encoding.md R50). -/
abbrev InputWord := BitVec 11

end Sys2Proof
end

