-- ==== Sys2Proof/Config.lean ====
section
/-! DEFINITION. The fixed parameters of the core (00_scope.md R2), the one parameter the spec leaves open, and the free
value of the model. -/

namespace Sys2Proof

/-- POLY, the generator constant 29 = 0x1D = binary 00011101 (00_scope.md R2, 10_state.md R12, 90_conflicts.md C1). -/
def Config.poly : Byte := 0x1D#8

/-- INIT, the initial accumulator value (00_scope.md R2), also the reset value (10_state.md R20). -/
def Config.initAcc : Byte := 0x00#8

/-- The number of sub-steps per byte, exactly 8 (00_scope.md R2, 40_datapath.md R63). -/
def Config.subSteps : Nat := 8

/-- `ACC_POWERUP`, the content of the accumulator between power-up and the first RESET, INIT or START, which the spec
leaves open (10_state.md R21, 92_eei_decisions.md D7): a constant without a body. Safe (log 3). -/
opaque Config.accPowerup : Byte

/-- FREE VALUE (DESIGN CHOICE, log 2): the input word the host drives when the model's list of coming words is empty;
the argument is `State.drawn`. The host may drive any of the 2048 words in any cycle (70_reset_and_hazards.md R111). Safe. -/
opaque Config.hostWord : Nat → InputWord

end Sys2Proof
end

