-- ==== Sys2Proof/Syntax.lean ====
section
/-! DEFINITION. The five commands of the core (30_encoding.md R53, spec/opcode_table.json), the one error of the spec, and
the source lines of the spec's assembler (30_encoding.md R57, R58). -/

namespace Sys2Proof

/-- A command, one constructor per row of spec/opcode_table.json. The ignored bits of the input word are not part of the
command (30_encoding.md R55; 93_implementation_defined.md U3 lets a model drop them at decode: log 7). The operand of
UPDATE and START is a byte, so a value outside 0 to 255 cannot be written (60_exceptions.md R91). -/
inductive Instr where
  /-- RESET (41_commands.md R71). -/
  | reset
  /-- IDLE (41_commands.md R72). -/
  | idle
  /-- UPDATE b (41_commands.md R74). -/
  | update (b : Byte)
  /-- INIT (41_commands.md R73). -/
  | init
  /-- START b (41_commands.md R75). -/
  | start (b : Byte)
  deriving DecidableEq, Repr

/-- The one error of the spec, raised at the boundary in front of `din` and never by a command: `index` is the position
of the first element outside 0 to 255 and `value` its value (60_exceptions.md R90; the two fields: D11, log 10). -/
structure InvalidByteValue where
  index : Nat
  value : Int
  deriving DecidableEq, Repr

/-- A line of an assembler program (30_encoding.md R57) or a pseudo-instruction (R58). Operands are integers here, because
the source text can name a value that is no byte; the assembler rejects it (R57, 60_exceptions.md R92). -/
inductive SourceLine where
  | reset
  | idle
  | init
  | update (v : Int)
  | start (v : Int)
  /-- READ: an IDLE during which the host samples `crc`. -/
  | read
  /-- WAIT n: IDLE n times. -/
  | wait (n : Nat)
  /-- MSG b0, ..., bk; with no operand, the empty message. -/
  | msg (vs : List Int)
  /-- COMPUTE "text". -/
  | computeText (text : List Char)
  deriving DecidableEq, Repr

end Sys2Proof
end

