-- ==== Sys2Proof/WellFormed.lean ====
section
/-! DEFINITION. Which commands and which source lines are well formed. Every command is (30_encoding.md R55: there is no
illegal encoding); a source line is when each of its operands is a byte (30_encoding.md R57, 60_exceptions.md R92). -/

namespace Sys2Proof

/-- The closed range 0 to 255 of the boundary check (60_exceptions.md R90, R92). -/
def inByteRange (v : Int) : Bool := decide (0 ≤ v) && decide (v ≤ 255)

/-- A character that ASCII gives a code (30_encoding.md R57, R58). -/
def isAscii (c : Char) : Bool := decide (c.toNat ≤ 127)

/-- Every command is well formed: its operand is a byte by its type (30_encoding.md R55, 60_exceptions.md R91). -/
def Instr.wellFormed : Instr → Bool
  | .reset => true
  | .idle => true
  | .update _ => true
  | .init => true
  | .start _ => true

/-- A source line is well formed when every operand is in 0 to 255 and every character of a text is ASCII. -/
def SourceLine.wellFormed : SourceLine → Bool
  | .reset => true
  | .idle => true
  | .init => true
  | .update v => inByteRange v
  | .start v => inByteRange v
  | .read => true
  | .wait _ => true
  | .msg vs => vs.all inByteRange
  | .computeText text => text.all isAscii

end Sys2Proof
end

