-- ==== Sys2Proof/Decode.lean ====
section
/-! DEFINITION. The decoder of the input word (30_encoding.md R50 to R55), total on the 2048 words, and the encoder that
gives each command its canonical word (R55). -/

namespace Sys2Proof

/-- `rst`, bit 10 of the input word (30_encoding.md R50). -/
def rstBit (w : InputWord) : Bool := w.getLsbD 10

/-- `clr`, bit 9 of the input word (30_encoding.md R50). -/
def clrBit (w : InputWord) : Bool := w.getLsbD 9

/-- `vld`, bit 8 of the input word (30_encoding.md R50). -/
def vldBit (w : InputWord) : Bool := w.getLsbD 8

/-- `din`, bits 7 to 0 of the input word, used exactly as it stands (30_encoding.md R50, R52). -/
def dinField (w : InputWord) : Byte := w.extractLsb' 0 8

/-- The input word formed from the four input ports, `rst` on top (30_encoding.md R50). -/
def portsWord (rst clr vld : Bool) (din : Byte) : InputWord :=
  BitVec.ofBool rst ++ (BitVec.ofBool clr ++ (BitVec.ofBool vld ++ din))

/-- The decoder. `rst` overrides `clr` and `vld`; the two of them name the other four commands (30_encoding.md R53, R54). -/
def decode (w : InputWord) : Instr :=
  if rstBit w then .reset
  else
    match clrBit w, vldBit w with
    | false, false => .idle
    | false, true => .update (dinField w)
    | true, false => .init
    | true, true => .start (dinField w)

/-- Why a number is no input word: the ports carry 11 bits and nothing else (10_state.md R18, 30_encoding.md R50). -/
inductive DecodeReject where
  /-- The number has a bit above bit 10, for which the core has no port (log 6). Safe. -/
  | noSuchPortBit (n : Nat)
  deriving DecidableEq, Repr

/-- A number as an input word, if the 11 bits hold it; nothing is cut off (log 6). -/
def inputWordOfNat (n : Nat) : Except DecodeReject InputWord :=
  if n < 2048 then .ok (BitVec.ofNat 11 n) else .error (.noSuchPortBit n)

/-- The decoder on numbers: total, rejecting by name what is no input word. -/
def decodeNumber (n : Nat) : Except DecodeReject Instr :=
  match inputWordOfNat n with
  | .ok w => .ok (decode w)
  | .error e => .error e

/-- The instruction the decoder reads from bits numbered as spec/opcode_table.json numbers them: bit 0 is `din[0]`, bit 10
is `rst`. The core stores no word (30_encoding.md R51), so there is no byte order to undo. -/
def decodeTableWord (_nbits w : Nat) : Option Instr :=
  match decodeNumber w with
  | .ok i => some i
  | .error _ => none

/-- The canonical word of a command, every ignored bit 0 (30_encoding.md R55). -/
def encode : Instr → InputWord
  | .reset => 0x400#11
  | .idle => 0x000#11
  | .update b => 0x100#11 + b.setWidth 11
  | .init => 0x200#11
  | .start b => 0x300#11 + b.setWidth 11

/-- The `match` column of the opcode map (30_encoding.md R53). -/
def rowMatch : Instr → InputWord
  | .reset => 0x400#11
  | .idle => 0x000#11
  | .update _ => 0x100#11
  | .init => 0x200#11
  | .start _ => 0x300#11

/-- The `mask` column of the opcode map (30_encoding.md R53). -/
def rowMask : Instr → InputWord
  | .reset => 0x400#11
  | .idle => 0x700#11
  | .update _ => 0x700#11
  | .init => 0x700#11
  | .start _ => 0x700#11

/-- The bits of an input word the command reads: all but the ignored bits of 30_encoding.md R55. -/
def usedBits : Instr → InputWord
  | .reset => 0x400#11
  | .idle => 0x700#11
  | .update _ => 0x7FF#11
  | .init => 0x700#11
  | .start _ => 0x7FF#11

/-- A word is canonical when all the bits its command ignores are 0 (30_encoding.md R55). -/
def isCanonical (w : InputWord) : Bool := w &&& ~~~ usedBits (decode w) == 0#11

end Sys2Proof
end

