-- ==== Sys2Proof/Machine/State.lean ====
section
/-! DEFINITION. The state of one instance of the core, its reset and power-up states, and the (empty) reasons to stop. -/

namespace Sys2Proof.Machine

/-- The state. The core's own state is `acc` and nothing else (10_state.md R10, R13). `pending` and `drawn` belong to the
environment and not to the core: the step of Host/Core.lean takes no input, so the words the host drives stand here
(log 1, log 2). -/
structure State where
  /-- `ACC`, the accumulator, 8 bits (10_state.md R10). -/
  acc : Byte
  /-- The input words the host drives at the coming rising edges, the next one first (10_state.md R15; log 1). -/
  pending : List InputWord
  /-- How many free host words have been taken so far, the index of the next one (log 2). -/
  drawn : Nat
  deriving DecidableEq, Repr

/-- The faults of the core: none. No command raises an exception (41_commands.md R76), the core has no error state
(10_state.md R13), and the one error of the spec belongs to the boundary in front of `din` (60_exceptions.md R91). Exact,
hence safe (log 4). -/
inductive Fault where
  deriving DecidableEq, Repr

/-- The refusals. -/
inductive Refusal where
  /-- An instruction the model gives no meaning to. No arm of `exec` raises it: all five commands have their meaning
  (log 5). Safe. -/
  | notModelled (mnemonic : String)
  deriving DecidableEq, Repr

/-- The state right after a RESET: `ACC` is 0x00 (10_state.md R20, 70_reset_and_hazards.md R101). The host's two fields
are at DESIGN CHOICE values: no word listed (log 1), no free word taken (log 2). -/
def State.reset : State := { acc := Config.initAcc, pending := [], drawn := 0 }

/-- The state at power-up, before any command: the accumulator holds the open value `ACC_POWERUP` (10_state.md R21; log 3). -/
def State.powerUp : State := { acc := Config.accPowerup, pending := [], drawn := 0 }

end Sys2Proof.Machine
end

