-- ==== Sys2Proof/Machine/Flags.lean ====
section
/-! DEFINITION. Flags. The core has none (10_state.md R11, R13; 41_commands.md R71 to R75: "Flags: none"). The one bit the
datapath tests is tested before it is lost and is not kept (40_datapath.md R60, R61); it is the whole of this file. -/

namespace Sys2Proof.Machine

/-- The test of step 2a: bit 7 of the working value, with mask 0x80, read before the shift (40_datapath.md R61). -/
def highBit (c : Byte) : Bool := (c &&& 0x80#8) != 0#8

end Sys2Proof.Machine
end

