-- ==== Sys2Proof/Machine/Datapath.lean ====
section
/-! DEFINITION. The shift-and-XOR datapath: `shl1`, `bit_step`, `byte_step`, `T` and `fold` (40_datapath.md R60 to R66). -/

namespace Sys2Proof.Machine

/-- Left shift by one, truncated to 8 bits: `(2 * v) mod 256` (40_datapath.md R60). -/
def shl1 (v : Byte) : Byte := v <<< 1

/-- One sub-step: test bit 7, shift, then XOR with POLY if the tested bit was 1 (40_datapath.md R61). -/
def bitStep (c : Byte) : Byte :=
  if highBit c then shl1 c ^^^ Config.poly else shl1 c

/-- `n` sub-steps in a row. -/
def bitSteps : Nat → Byte → Byte
  | 0, c => c
  | n + 1, c => bitSteps n (bitStep c)

/-- The one-byte transition: XOR the byte in whole, then exactly eight sub-steps (40_datapath.md R62, R63). -/
def byteStep (a b : Byte) : Byte := bitSteps Config.subSteps (a ^^^ b)

/-- `T(x) = bit_step^8(x)` (40_datapath.md R66). -/
def tStep (x : Byte) : Byte := bitSteps Config.subSteps x

/-- `fold`: one `byte_step` per element, first element first (40_datapath.md R64). -/
def fold : Byte → List Byte → Byte
  | a, [] => a
  | a, b :: rest => fold (byteStep a b) rest

end Sys2Proof.Machine
end

