-- ==== Sys2Proof/Machine/Ops.lean ====
section
/-! DEFINITION. The named operations over the state: reading and writing the accumulator, the output port, sampling the
input ports, and placing a word on them. The core has no memory and takes no exception, so there is no operation for
either (20_memory.md R30, 41_commands.md R76, 60_exceptions.md R93). -/

namespace Sys2Proof.Machine

/-- Read `ACC` (00_scope.md section 6). -/
def readAcc (s : State) : Byte := s.acc

/-- `ACC <- v`, at the edge that ends the cycle; nothing else changes (00_scope.md section 6, 20_memory.md R36). -/
def writeAcc (v : Byte) (s : State) : State := { s with acc := v }

/-- The output port `crc`, equal to `ACC` in every cycle and without a side effect (10_state.md R19, R23). -/
def crc (s : State) : Byte := readAcc s

/-- Absorb byte `b` into `base`: `ACC <- byte_step(base, b)` (41_commands.md R74, R75). -/
def absorb (base b : Byte) (s : State) : State := writeAcc (byteStep base b) s

/-- `ACC <- 0x00` (41_commands.md R71, R73). -/
def clearAcc (s : State) : State := writeAcc Config.initAcc s

/-- The word on the input ports in this cycle: the next listed one, or a free word when none is listed (log 1, log 2). -/
def presented (s : State) : InputWord :=
  match s.pending with
  | [] => Config.hostWord s.drawn
  | w :: _ => w

/-- The host moves on to its word for the next cycle; the core is not touched (log 1, log 2). -/
def advanceHost (s : State) : State :=
  match s.pending with
  | [] => { s with drawn := s.drawn + 1 }
  | _ :: rest => { s with pending := rest }

/-- Put a word on the ports as the one the next edge samples, in place of the word that was to come next. -/
def placeWord (w : InputWord) (s : State) : State := { s with pending := w :: s.pending.tail }

/-- `placeWord` for a number; a number that is no input word is not placed, and never cut down to one (log 6). -/
def placeNumber (n : Nat) (s : State) : State :=
  match inputWordOfNat n with
  | .ok w => placeWord w s
  | .error _ => s

end Sys2Proof.Machine
end

