-- ==== Sys2Proof/Machine/Operands.lean ====
section
/-! DEFINITION. The operand forms: the accumulator operand, which is `ACC` or, when `clr` is 1, 0x00 (30_encoding.md R50),
and the byte operand `din` (R52). -/

namespace Sys2Proof.Machine

/-- The accumulator operand of a cycle: 0x00 instead of `ACC` when a message begins (30_encoding.md R50). -/
def accOperand (clr : Bool) (s : State) : Byte := if clr then Config.initAcc else readAcc s

/-- The byte operand, used exactly as it stands: no extension, scaling, shift, reflection or inversion (30_encoding.md R52). -/
def dinOperand (b : Byte) : Byte := b

end Sys2Proof.Machine
end

