-- ==== Sys2Proof/Machine/Absorb.lean ====
section
/-! DEFINITION. The commands that absorb a byte: UPDATE and START (41_commands.md R74, R75). -/

namespace Sys2Proof.Machine

/-- UPDATE b: `ACC <- byte_step(ACC, b)` (41_commands.md R74). -/
def execUpdate (b : Byte) (s : State) : Host.Outcome State Fault Refusal :=
  .next (absorb (accOperand false s) (dinOperand b) s)

/-- START b: `ACC <- byte_step(0x00, b)`; `ACC` is not read (41_commands.md R75). -/
def execStart (b : Byte) (s : State) : Host.Outcome State Fault Refusal :=
  .next (absorb (accOperand true s) (dinOperand b) s)

end Sys2Proof.Machine
end

