-- ==== Sys2Proof/Machine/Hold.lean ====
section
/-! DEFINITION. The commands that take no byte: RESET, IDLE, INIT (41_commands.md R71, R72, R73). -/

namespace Sys2Proof.Machine

/-- RESET: `ACC <- 0x00`; `ACC` is not read (41_commands.md R71). -/
def execReset (s : State) : Host.Outcome State Fault Refusal := .next (clearAcc s)

/-- IDLE: `ACC <- ACC` (41_commands.md R72). -/
def execIdle (s : State) : Host.Outcome State Fault Refusal := .next (writeAcc (readAcc s) s)

/-- INIT: `ACC <- 0x00`; `ACC` is not read (41_commands.md R73). -/
def execInit (s : State) : Host.Outcome State Fault Refusal := .next (clearAcc s)

end Sys2Proof.Machine
end

