-- ==== Sys2Proof/Machine/Dispatch.lean ====
section
/-! DEFINITION. One arm per command: each calls its meaning. -/

namespace Sys2Proof.Machine

def exec (i : Instr) (s : State) : Host.Outcome State Fault Refusal :=
  match i with
  | .reset => Sys2Proof.Machine.execReset s
  | .idle => Sys2Proof.Machine.execIdle s
  | .update b => Sys2Proof.Machine.execUpdate b s
  | .init => Sys2Proof.Machine.execInit s
  | .start b => Sys2Proof.Machine.execStart b s

end Sys2Proof.Machine
end

