-- ==== Sys2Proof/Machine/Step.lean ====
section
/-! DEFINITION. One clock cycle: the rising edge samples the word on the ports, the core performs the command it decodes
to, and the host moves on (41_commands.md R70, 30_encoding.md R51). -/

namespace Sys2Proof.Machine

/-- One rising edge of `clk` (41_commands.md R70). -/
def step (s : State) : Host.Outcome State Fault Refusal :=
  exec (decode (presented s)) (advanceHost s)

/-- `s` with the instruction of bits `w` on the input ports, so that the very next step performs it (log 1). A `w` above
11 bits is no input word and nothing is placed (log 6). -/
def State.withFetchWord (s : State) (_nbits w : Nat) : State := placeNumber w s

end Sys2Proof.Machine
end

