-- ==== Sys2Proof/Machine/Cycle.lean ====
section
/-! DEFINITION. Cycles in a row, and the cycle level as the spec writes it, on the accumulator and the input word alone:
`next`, its circuit form, and `run` (41_commands.md R70). `step` is written over the decoder and the commands' meanings; that the two agree is
a statement, not a definition. -/

namespace Sys2Proof.Machine

/-- `k` clock cycles in a row. -/
def runSteps : Nat → State → Host.Outcome State Fault Refusal
  | 0, s => .next s
  | k + 1, s =>
    match step s with
    | .next t => runSteps k t
    | .fault r => .fault r
    | .refused r => .refused r

/-- `next(ACC, IW)`, the case split of 41_commands.md R70 over the bits of the input word. -/
def nextAcc (a : Byte) (w : InputWord) : Byte :=
  if rstBit w = true then 0x00#8
  else if clrBit w = false ∧ vldBit w = false then a
  else if clrBit w = true ∧ vldBit w = false then 0x00#8
  else if clrBit w = false ∧ vldBit w = true then byteStep a (dinField w)
  else byteStep 0x00#8 (dinField w)

/-- The circuit form of `next`: a base chosen by `clr`, a byte absorbed if `vld`, all overridden by `rst` (41_commands.md R70). -/
def circuitNext (a : Byte) (w : InputWord) : Byte :=
  let base := if clrBit w then 0x00#8 else a
  if rstBit w then 0x00#8 else if vldBit w then byteStep base (dinField w) else base

/-- `run(s, ws)`: the left fold of `next` over the input words (41_commands.md R70). -/
def runWords : Byte → List InputWord → Byte
  | a, [] => a
  | a, w :: ws => runWords (nextAcc a w) ws

end Sys2Proof.Machine
end

