-- ==== Sys2Proof/Machine/Message.lean ====
section
/-! DEFINITION. The message level: `compute` (42_compute.md R80) and the command sequence by which a host obtains it (R81). -/

namespace Sys2Proof.Machine

/-- `compute(S) = fold(0x00, S)`; nothing before the first byte but setting 0x00, nothing after the last (42_compute.md R80,
40_datapath.md R65). -/
def compute (bytes : List Byte) : Byte := fold Config.initAcc bytes

/-- The commands of a message: INIT for the empty one, else START and UPDATEs (42_compute.md R81; the MSG of 30_encoding.md R58). -/
def messageCommands : List Byte → List Instr
  | [] => [.init]
  | b :: bs => .start b :: bs.map .update

/-- The same message begun with INIT or RESET, one cycle longer (42_compute.md R81, 70_reset_and_hazards.md R109). -/
def messageAfter (opening : Instr) (bytes : List Byte) : List Instr := opening :: bytes.map .update

/-- Commands as the words the host drives, in the canonical encoding (30_encoding.md R55). -/
def wordsOf (cmds : List Instr) : List InputWord := cmds.map encode

/-- The input words of a message, one a clock cycle (42_compute.md R81). -/
def messageWords (bytes : List Byte) : List InputWord := wordsOf (messageCommands bytes)

end Sys2Proof.Machine
end

