-- ==== Sys2Proof/Machine/Boundary.lean ====
section
/-! DEFINITION. The boundary in front of `din`: the range check and the one error, `InvalidByteValue` (60_exceptions.md R90
to R96). The wrapper is outside the core; the spec says what it must do, in either of two orders (90_conflicts.md C4). -/

namespace Sys2Proof.Machine

/-- The byte of an integer already checked to be in 0 to 255. -/
def byteOfInt (v : Int) : Byte := BitVec.ofInt 8 v

/-- The first element outside 0 to 255, with its index counted from `i` (60_exceptions.md R90, R96). -/
def firstInvalid (i : Nat) : List Int → Option InvalidByteValue
  | [] => none
  | v :: vs => if inByteRange v then firstInvalid (i + 1) vs else some { index := i, value := v }

/-- The bytes of the elements before the first one outside 0 to 255. -/
def validPrefix : List Int → List Byte
  | [] => []
  | v :: vs => if inByteRange v then byteOfInt v :: validPrefix vs else []

/-- Every element checked, none cut, masked or replaced: the bytes, or the error (60_exceptions.md R92). -/
def checkedBytes (vs : List Int) : Except InvalidByteValue (List Byte) :=
  match firstInvalid 0 vs with
  | some e => .error e
  | none => .ok (validPrefix vs)

/-- `compute_checked` (60_exceptions.md R92). -/
def computeChecked (vs : List Int) : Except InvalidByteValue Byte :=
  match checkedBytes vs with
  | .ok bytes => .ok (compute bytes)
  | .error e => .error e

/-- A wrapper that checks the whole sequence before its first command: on an error it drives nothing
(60_exceptions.md R93). -/
def issueAfterCheck (vs : List Int) : List InputWord :=
  match checkedBytes vs with
  | .ok bytes => messageWords bytes
  | .error _ => []

/-- A wrapper that checks each element as it reaches it: the message of the valid elements before an invalid one has been
driven, the invalid one never is, and `ACC` then holds the checksum of that prefix, 0x00 when the prefix is empty
(60_exceptions.md R93, 93_implementation_defined.md U5, 42_compute.md R82). DESIGN CHOICE (log 11): of the openings R93 leaves
free it takes those of R81, START for a non-empty prefix and INIT for the empty one. -/
def issueAsRead (vs : List Int) : List InputWord := messageWords (validPrefix vs)

/-- A call through a wrapper that drives `issued`: the accumulator it leaves, and the outcome of the call, which is the
error with no checksum if some element is out of range (60_exceptions.md R93, 93_implementation_defined.md U5). -/
def wrapperCall (issued : List Int → List InputWord) (a : Byte) (vs : List Int) :
    Byte × Except InvalidByteValue Byte :=
  let left := runWords a (issued vs)
  match firstInvalid 0 vs with
  | some e => (left, .error e)
  | none => (left, .ok left)

end Sys2Proof.Machine
end

