-- ==== Sys2Proof/Machine/Assembler.lean ====
section
/-! DEFINITION. The spec's assembler and disassembler (30_encoding.md R57, R58, R59): source lines to input words, text to
source lines, words to text. Text is a list of characters. What the spec does not say of the text is in log 12. -/

namespace Sys2Proof.Machine

/-- Why the assembler rejects a line. -/
inductive AsmError where
  /-- An operand outside 0 to 255 (30_encoding.md R57, 60_exceptions.md R92). -/
  | invalidByte (e : InvalidByteValue)
  /-- A character of a COMPUTE text that ASCII gives no code (log 13). -/
  | notAscii (c : Char)
  /-- The text is not of the form 30_encoding.md R57 and R58 give a line. -/
  | badLine
  deriving DecidableEq, Repr

/-- Operands checked, never truncated (30_encoding.md R57). -/
def asmBytes (vs : List Int) : Except AsmError (List Byte) :=
  match checkedBytes vs with
  | .ok bytes => .ok bytes
  | .error e => .error (.invalidByte e)

/-- The ASCII codes of a text, first character first (30_encoding.md R58, 20_memory.md R34). -/
def asciiCodes : List Char → Except AsmError (List Byte)
  | [] => .ok []
  | c :: cs =>
    if isAscii c then
      match asciiCodes cs with
      | .ok bs => .ok (BitVec.ofNat 8 c.toNat :: bs)
      | .error e => .error e
    else .error (.notAscii c)

/-- The commands of a source line, pseudo-instructions expanded (30_encoding.md R57, R58). DESIGN CHOICE (log 18): the
index of a rejected operand's InvalidByteValue counts within the operands of this one line. -/
def expandLine : SourceLine → Except AsmError (List Instr)
  | .reset => .ok [.reset]
  | .idle => .ok [.idle]
  | .init => .ok [.init]
  | .update v =>
    match asmBytes [v] with
    | .ok bs => .ok (bs.map .update)
    | .error e => .error e
  | .start v =>
    match asmBytes [v] with
    | .ok bs => .ok (bs.map .start)
    | .error e => .error e
  | .read => .ok [.idle]
  | .wait n => .ok (List.replicate n .idle)
  | .msg vs =>
    match asmBytes vs with
    | .ok bs => .ok (messageCommands bs)
    | .error e => .error e
  | .computeText text =>
    match asciiCodes text with
    | .ok bs => .ok (messageCommands bs ++ [.idle])
    | .error e => .error e

/-- A program is a list of lines executed top to bottom, one command a cycle (30_encoding.md R57). DESIGN CHOICE (log 17):
the first line that is rejected is reported and the program has no words. -/
def assemble : List SourceLine → Except AsmError (List InputWord)
  | [] => .ok []
  | l :: ls =>
    match expandLine l, assemble ls with
    | .ok cmds, .ok ws => .ok (wordsOf cmds ++ ws)
    | .error e, _ => .error e
    | .ok _, .error e => .error e

/-- Blank and tab separate the parts of a line (log 12). -/
def isBlank (c : Char) : Bool := c == ' ' || c == '\t'

/-- The text without its leading blanks. -/
def skipBlanks (cs : List Char) : List Char := cs.dropWhile isBlank

/-- After the operands of a line: nothing, or a comment from `;` on (30_encoding.md R57). -/
def isLineEnd (cs : List Char) : Bool :=
  match skipBlanks cs with
  | [] => true
  | c :: _ => c == ';'

/-- The value of a decimal digit. -/
def decDigit (c : Char) : Option Nat :=
  if 48 ≤ c.toNat ∧ c.toNat ≤ 57 then some (c.toNat - 48) else none

/-- The value of a hexadecimal digit, of either case (log 12). -/
def hexDigit (c : Char) : Option Nat :=
  if 48 ≤ c.toNat ∧ c.toNat ≤ 57 then some (c.toNat - 48)
  else if 65 ≤ c.toNat ∧ c.toNat ≤ 70 then some (c.toNat - 55)
  else if 97 ≤ c.toNat ∧ c.toNat ≤ 102 then some (c.toNat - 87)
  else none

/-- Decimal digits read on from the value `n`; the rest of the text begins at the first other character. -/
def readDecFrom : Nat → List Char → Nat × List Char
  | n, [] => (n, [])
  | n, c :: cs =>
    match decDigit c with
    | some d => readDecFrom (10 * n + d) cs
    | none => (n, c :: cs)

/-- An unsigned decimal number of at least one digit. -/
def readDec : List Char → Option (Nat × List Char)
  | [] => none
  | c :: cs =>
    match decDigit c with
    | some d => some (readDecFrom d cs)
    | none => none

/-- One operand: `0x` and two hexadecimal digits, a decimal number, or one printable ASCII character in single quotes
(30_encoding.md R57). DESIGN CHOICE (log 12): a minus sign before a decimal number is read as its sign, so -1 is a number out
of range, rejected by the range check, and -0 is the number 0, accepted. -/
def readOperand : List Char → Option (Int × List Char)
  | '0' :: 'x' :: h :: l :: rest =>
    match hexDigit h, hexDigit l with
    | some a, some b => some (((16 * a + b : Nat) : Int), rest)
    | _, _ => none
  | q :: c :: r :: rest =>
    if q.toNat = 39 ∧ r.toNat = 39 ∧ 32 ≤ c.toNat ∧ c.toNat ≤ 126 then some ((c.toNat : Int), rest)
    else if q = '-' then (readDec (c :: r :: rest)).map fun p => (-(p.1 : Int), p.2)
    else (readDec (q :: c :: r :: rest)).map fun p => ((p.1 : Int), p.2)
  | '-' :: cs => (readDec cs).map fun p => (-(p.1 : Int), p.2)
  | cs => (readDec cs).map fun p => ((p.1 : Int), p.2)

/-- Operands separated by commas, at least one, then the end of the line; `fuel` bounds their number. -/
def readOperands : Nat → List Char → Option (List Int)
  | 0, _ => none
  | fuel + 1, cs =>
    match readOperand (skipBlanks cs) with
    | none => none
    | some (v, rest) =>
      if isLineEnd rest then some [v]
      else
        match skipBlanks rest with
        | ',' :: more => (readOperands fuel more).map (v :: ·)
        | _ => none

/-- The text between two double quotes, then the end of the line (30_encoding.md R58). -/
def readQuoted (cs : List Char) : Option (List Char) :=
  match skipBlanks cs with
  | [] => none
  | q :: body =>
    if q.toNat = 34 then
      match body.dropWhile (fun c => c.toNat != 34) with
      | [] => none
      | _ :: rest => if isLineEnd rest then some (body.takeWhile (fun c => c.toNat != 34)) else none
    else none

/-- The source line of a mnemonic and the text after it (30_encoding.md R57, R58); mnemonics are upper case. -/
def parseCommand (mnemonic rest : List Char) : Option SourceLine :=
  if mnemonic = ['R', 'E', 'S', 'E', 'T'] then if isLineEnd rest then some .reset else none
  else if mnemonic = ['I', 'D', 'L', 'E'] then if isLineEnd rest then some .idle else none
  else if mnemonic = ['I', 'N', 'I', 'T'] then if isLineEnd rest then some .init else none
  else if mnemonic = ['U', 'P', 'D', 'A', 'T', 'E'] then
    match readOperands 1 rest with
    | some [v] => some (.update v)
    | _ => none
  else if mnemonic = ['S', 'T', 'A', 'R', 'T'] then
    match readOperands 1 rest with
    | some [v] => some (.start v)
    | _ => none
  else if mnemonic = ['R', 'E', 'A', 'D'] then if isLineEnd rest then some .read else none
  else if mnemonic = ['W', 'A', 'I', 'T'] then
    match readDec (skipBlanks rest) with
    | some (n, more) => if isLineEnd more then some (.wait n) else none
    | none => none
  else if mnemonic = ['M', 'S', 'G'] then
    if isLineEnd rest then some (.msg []) else (readOperands rest.length rest).map .msg
  else if mnemonic = ['C', 'O', 'M', 'P', 'U', 'T', 'E'] then (readQuoted rest).map .computeText
  else none

/-- An upper-case letter, the characters of a mnemonic (30_encoding.md R57). -/
def isUpper (c : Char) : Bool := decide (65 ≤ c.toNat) && decide (c.toNat ≤ 90)

/-- One line of text: none when it is blank or only a comment, and then it costs no cycle (log 12). DESIGN CHOICE (log 16):
the mnemonic is the longest run of upper-case letters, and no blank need stand between it and an operand. -/
def parseLine (cs : List Char) : Except AsmError (Option SourceLine) :=
  if isLineEnd cs then .ok none
  else
    let body := skipBlanks cs
    match parseCommand (body.takeWhile isUpper) (body.dropWhile isUpper) with
    | some l => .ok (some l)
    | none => .error .badLine

/-- A program's text cut at its line ends. -/
def splitLines : List Char → List (List Char)
  | [] => [[]]
  | c :: cs =>
    if c = '\n' then [] :: splitLines cs
    else
      match splitLines cs with
      | [] => [[c]]
      | l :: ls => (c :: l) :: ls

/-- The source lines of a list of text lines, top to bottom. -/
def parseLines : List (List Char) → Except AsmError (List SourceLine)
  | [] => .ok []
  | l :: ls =>
    match parseLine l, parseLines ls with
    | .ok none, .ok rest => .ok rest
    | .ok (some x), .ok rest => .ok (x :: rest)
    | .error e, _ => .error e
    | .ok _, .error e => .error e

/-- Text to input words (30_encoding.md R57). DESIGN CHOICE (log 17): a rejected line leaves the whole text without words,
and every line is parsed before any operand is checked, so a malformed line is reported before an operand out of range. -/
def assembleText (cs : List Char) : Except AsmError (List InputWord) :=
  match parseLines (splitLines cs) with
  | .ok ls => assemble ls
  | .error e => .error e

/-- A hexadecimal digit as the spec prints it, upper case. -/
def hexChar (n : Nat) : Char := if n < 10 then Char.ofNat (48 + n) else Char.ofNat (55 + n)

/-- `0x` and two hexadecimal digits (30_encoding.md R57, R59). -/
def byteText (b : Byte) : List Char := ['0', 'x', hexChar (b.toNat / 16), hexChar (b.toNat % 16)]

/-- The text of a word, one spelling per row; ignored bits are not printed (30_encoding.md R59). -/
def disassemble (w : InputWord) : List Char :=
  match decode w with
  | .reset => ['R', 'E', 'S', 'E', 'T']
  | .idle => ['I', 'D', 'L', 'E']
  | .update b => ['U', 'P', 'D', 'A', 'T', 'E', ' '] ++ byteText b
  | .init => ['I', 'N', 'I', 'T']
  | .start b => ['S', 'T', 'A', 'R', 'T', ' '] ++ byteText b

/-- A program's text, one command a line, top to bottom (30_encoding.md R57, R59). -/
def listing : List InputWord → List Char
  | [] => []
  | w :: ws => disassemble w ++ '\n' :: listing ws

/-- The reversible spelling: the whole word stands in a comment (30_encoding.md R59). -/
def disassembleWhole (w : InputWord) : List Char :=
  disassemble w ++ [' ', ';', ' ', '0', 'x', hexChar (w.toNat / 256), hexChar (w.toNat / 16 % 16), hexChar (w.toNat % 16)]

end Sys2Proof.Machine
end

