-- ==== Sys2Proof/Safety.lean ====
section
/-! DEFINITION. What the host must do for `crc` to be the checksum of its message (70_reset_and_hazards.md R102 to R107), as
predicates on the words it drives, and the invariant of a run. -/

namespace Sys2Proof

open Sys2Proof.Machine

/-- A command that ends the unspecified power-up condition and may begin a message: it writes `ACC` without reading it
(10_state.md R21, 70_reset_and_hazards.md R102, R103). -/
def opensMessage : Instr → Bool
  | .reset => true
  | .idle => false
  | .update _ => false
  | .init => true
  | .start _ => true

/-- The bytes a word sequence absorbs after a message is open, IDLE cycles skipped; none if a command in it begins another
message (70_reset_and_hazards.md R103, R106). -/
def absorbedBytes : List InputWord → Option (List Byte)
  | [] => some []
  | w :: ws =>
    match decode w with
    | .idle => absorbedBytes ws
    | .update b => (absorbedBytes ws).map (b :: ·)
    | .reset => none
    | .init => none
    | .start _ => none

/-- The message a word sequence carries: RESET, INIT or START, then one UPDATE per remaining byte, IDLE cycles anywhere
(42_compute.md R81, 70_reset_and_hazards.md R111). -/
def carriedMessage : List InputWord → Option (List Byte)
  | [] => none
  | w :: ws =>
    match decode w with
    | .idle => carriedMessage ws
    | .update _ => none
    | .reset => absorbedBytes ws
    | .init => absorbedBytes ws
    | .start b => (absorbedBytes ws).map (b :: ·)

/-- A step goes on: it answers a next state. -/
def Proceeds (s : State) : Prop := ∃ t, step s = .next t

/-- The invariant of a run over listed words: counted from `n` free words, either a further free word has been taken, or
the accumulator together with the words still to come gives `r` at the end (41_commands.md R70, 20_memory.md R40). -/
def OnCourse (r : Byte) (n : Nat) (s : State) : Prop :=
  n ≤ s.drawn ∧ (s.drawn = n → runWords s.acc s.pending = r)

end Sys2Proof
end

