-- ==== Sys2Proof/Certificates/Slice0/Obligations.lean ====
section
/-! DEFINITION. The statements for the provers. Each docstring names the rule of the spec it formalises. -/

open Sys2Proof Sys2Proof.Machine

/-! ### Encoding -/

/-- Words written out bit by bit from 30_encoding.md R53 and the decode vectors of 95_test_vectors.md section 6, among
them the words on either side of each boundary. -/
def Obligations.WordsOfTheSpecDecode : Prop :=
  decode 0b00000000000#11 = .idle ∧ decode 0b00011111111#11 = .idle
    ∧ decode 0b00100000000#11 = .update 0x00#8 ∧ decode 0b00101000001#11 = .update 0x41#8
    ∧ decode 0b00111111111#11 = .update 0xFF#8
    ∧ decode 0b01000000000#11 = .init ∧ decode 0b01001010101#11 = .init ∧ decode 0b01011111111#11 = .init
    ∧ decode 0b01100000000#11 = .start 0x00#8 ∧ decode 0b01101000001#11 = .start 0x41#8
    ∧ decode 0b01111111111#11 = .start 0xFF#8
    ∧ decode 0b10000000000#11 = .reset ∧ decode 0b10111111111#11 = .reset ∧ decode 0b11111111111#11 = .reset

/-- The ports and the input word are the same 11 bits, `rst` bit 10, `clr` bit 9, `vld` bit 8, `din[7:0]` bits 7 to 0
(30_encoding.md R50). -/
def Obligations.PortsAreTheBitsOfTheInputWord : Prop :=
  (∀ (rst clr vld : Bool) (din : Byte),
      (portsWord rst clr vld din).getLsbD 10 = rst ∧ (portsWord rst clr vld din).getLsbD 9 = clr
        ∧ (portsWord rst clr vld din).getLsbD 8 = vld
        ∧ (∀ k, k < 8 → (portsWord rst clr vld din).getLsbD k = din.getLsbD k)
        ∧ rstBit (portsWord rst clr vld din) = rst ∧ clrBit (portsWord rst clr vld din) = clr
        ∧ vldBit (portsWord rst clr vld din) = vld ∧ dinField (portsWord rst clr vld din) = din)
    ∧ ∀ w : InputWord, portsWord (rstBit w) (clrBit w) (vldBit w) (dinField w) = w

/-- Decoding a well-formed command's canonical word gives the command back, with every operand at every value
(30_encoding.md R53, R55). -/
def Obligations.DecodeOfEncodeIsTheCommand : Prop :=
  ∀ i : Instr, i.wellFormed = true → decode (encode i) = i

/-- Decode followed by canonical encode keeps exactly the bits the command reads, and is the identity on canonical words
and on no others (30_encoding.md R55, R59). -/
def Obligations.EncodeOfDecodeUpToIgnoredBits : Prop :=
  ∀ w : InputWord, encode (decode w) = w &&& usedBits (decode w)
    ∧ (isCanonical w = true ↔ encode (decode w) = w)

/-- Every input word selects exactly the row its match and mask say, and the rows take 1024, 256, 256, 256 and 256 of the
2048 words (30_encoding.md R53). -/
def Obligations.EveryWordSelectsExactlyOneRow : Prop :=
  (∀ w : InputWord,
      (decode w = .reset ↔ w &&& 0x400#11 = 0x400#11)
        ∧ (decode w = .idle ↔ w &&& 0x700#11 = 0x000#11)
        ∧ (∀ b, decode w = .update b ↔ w &&& 0x700#11 = 0x100#11 ∧ b = w.extractLsb' 0 8)
        ∧ (decode w = .init ↔ w &&& 0x700#11 = 0x200#11)
        ∧ (∀ b, decode w = .start b ↔ w &&& 0x700#11 = 0x300#11 ∧ b = w.extractLsb' 0 8)
        ∧ (∀ i, w &&& rowMask i = rowMatch i → rowMask i = rowMask (decode w) ∧ rowMatch i = rowMatch (decode w)))
    ∧ ((List.range 2048).countP fun n => rowMatch (decode (BitVec.ofNat 11 n)) == 0x400#11) = 1024
    ∧ ((List.range 2048).countP fun n => rowMatch (decode (BitVec.ofNat 11 n)) == 0x000#11) = 256
    ∧ ((List.range 2048).countP fun n => rowMatch (decode (BitVec.ofNat 11 n)) == 0x100#11) = 256
    ∧ ((List.range 2048).countP fun n => rowMatch (decode (BitVec.ofNat 11 n)) == 0x200#11) = 256
    ∧ ((List.range 2048).countP fun n => rowMatch (decode (BitVec.ofNat 11 n)) == 0x300#11) = 256

/-- `rst` overrides `clr` and `vld`, and a byte offered with it is lost; with `rst` 0, `clr` and `vld` both set are START,
which has the effect of INIT followed by UPDATE (30_encoding.md R54). -/
def Obligations.RstOverridesClrAndVld : Prop :=
  (∀ (clr vld : Bool) (din : Byte), decode (portsWord true clr vld din) = .reset)
    ∧ (∀ (s : State) (clr vld : Bool) (din : Byte) (rest : List InputWord),
        s.pending = portsWord true clr vld din :: rest →
          step s = .next { s with acc := 0x00#8, pending := rest })
    ∧ (∀ din : Byte, decode (portsWord false true true din) = .start din)
    ∧ ∀ (s : State) (din : Byte) (rest : List InputWord), s.pending = portsWord false true true din :: rest →
        ∃ t, exec .init { s with pending := rest } = .next t ∧ step s = exec (.update din) t

/-- Every word is a command; an ignored bit may have either value with the same next state and the same output; the
canonical words are 0x400, 0x000, 0x200, 0x100 + b and 0x300 + b (30_encoding.md R55). -/
def Obligations.IgnoredBitsHaveNoEffect : Prop :=
  (∀ s, ∃ t, step s = .next t)
    ∧ (∀ (s : State) (w v : InputWord) (rest : List InputWord),
        ((w.getLsbD 10 = true ∧ v.getLsbD 10 = true)
            ∨ (w.extractLsb' 8 3 = v.extractLsb' 8 3 ∧ w.getLsbD 8 = false)) →
          decode w = decode v
            ∧ step { s with pending := w :: rest } = step { s with pending := v :: rest }
            ∧ crc { s with pending := w :: rest } = crc { s with pending := v :: rest })
    ∧ encode .reset = 0x400#11 ∧ encode .idle = 0x000#11 ∧ encode .init = 0x200#11
    ∧ (∀ b : Byte, (encode (.update b)).toNat = 0x100 + b.toNat)
    ∧ ∀ b : Byte, (encode (.start b)).toNat = 0x300 + b.toNat

/-! ### The step -/

/-- The word on the ports is decoded and its command performed; around it, the host only moves on to its next word. Which
word is presented when none is listed is the model's free value (logs 1 and 2; 41_commands.md R70). -/
def Obligations.StepRunsTheDecodedCommand : Prop :=
  (∀ (s : State) (w : InputWord) (rest : List InputWord), s.pending = w :: rest →
      step s = exec (decode w) { s with pending := rest })
    ∧ ∀ s : State, s.pending = [] → step s = exec (decode (Config.hostWord s.drawn)) { s with drawn := s.drawn + 1 }

/-- The host's placing of a word: the very next step performs exactly it, and nothing of the core is changed (log 1). -/
def Obligations.PlacedWordIsPerformedNext : Prop :=
  ∀ (s : State) (nbits w : Nat), w < 2048 →
    ∃ t, step (s.withFetchWord nbits w) = .next t
      ∧ t.acc = nextAcc s.acc (BitVec.ofNat 11 w) ∧ t.pending = s.pending.tail ∧ t.drawn = s.drawn
      ∧ decodeTableWord nbits w = some (decode (BitVec.ofNat 11 w))
      ∧ (s.withFetchWord nbits w).acc = s.acc

/-- In every cycle the accumulator moves by `next`, a total function of itself and the word on the ports; `crc` is the
accumulator; `next` is equal to its circuit form; a run is the left fold of `next` (41_commands.md R70). -/
def Obligations.StepIsTheNextFunction : Prop :=
  (∀ s, step s = .next { advanceHost s with acc := nextAcc s.acc (presented s) })
    ∧ (∀ s : State, crc s = s.acc)
    ∧ (∀ (a : Byte) (w : InputWord),
        (w.getLsbD 10 = true → nextAcc a w = 0x00#8)
          ∧ (w.getLsbD 10 = false → w.getLsbD 9 = false → w.getLsbD 8 = false → nextAcc a w = a)
          ∧ (w.getLsbD 10 = false → w.getLsbD 9 = true → w.getLsbD 8 = false → nextAcc a w = 0x00#8)
          ∧ (w.getLsbD 10 = false → w.getLsbD 9 = false → w.getLsbD 8 = true →
              nextAcc a w = byteStep a (w.extractLsb' 0 8))
          ∧ (w.getLsbD 10 = false → w.getLsbD 9 = true → w.getLsbD 8 = true →
              nextAcc a w = byteStep 0x00#8 (w.extractLsb' 0 8)))
    ∧ (∀ (a : Byte) (w : InputWord), nextAcc a w = circuitNext a w)
    ∧ (∀ a : Byte, runWords a [] = a)
    ∧ ∀ (a : Byte) (w : InputWord) (ws : List InputWord), runWords a (w :: ws) = runWords (nextAcc a w) ws

/-- A run over a finite list of input words ends after exactly that many steps, in the state the fold of `next` gives, and
IDLE words anywhere change no result (41_commands.md R70, 70_reset_and_hazards.md R110). -/
def Obligations.RunOverListedWordsIsTheFold : Prop :=
  (∀ (s : State) (ws rest : List InputWord), s.pending = ws ++ rest →
      runSteps ws.length s = .next { s with acc := runWords s.acc ws, pending := rest })
    ∧ ∀ (a : Byte) (ws : List InputWord), runWords a (ws.filter fun w => decide (decode w ≠ .idle)) = runWords a ws

/-- The next output depends on the accumulator and the input word of this cycle only (20_memory.md R40). -/
def Obligations.NextOutputDependsOnAccAndWordOnly : Prop :=
  ∀ s s' : State, s.acc = s'.acc → presented s = presented s' →
    ∃ t t', step s = .next t ∧ step s' = .next t' ∧ crc t = crc t'

/-! ### The commands -/

/-- RESET (41_commands.md R71): `ACC` becomes 0x00 whatever it held and whatever the ignored bits are; the effect is that
of INIT; held, it is the same as once. -/
def Obligations.ResetClearsTheAccumulator : Prop :=
  (∀ s : State, exec .reset s = .next { s with acc := 0x00#8 })
    ∧ (∀ (s : State) (w : InputWord) (rest : List InputWord), w.getLsbD 10 = true → s.pending = w :: rest →
        step s = .next { s with acc := 0x00#8, pending := rest })
    ∧ (∀ (s : State) (ws rest : List InputWord), ws ≠ [] → (∀ w ∈ ws, w.getLsbD 10 = true) → s.pending = ws ++ rest →
        runSteps ws.length s = .next { s with acc := 0x00#8, pending := rest })
    ∧ (∀ s : State, exec .reset s = exec .init s)
    ∧ encode .reset = 0x400#11

/-- IDLE (41_commands.md R72): nothing of the core changes, whatever `din` is, for any number of cycles. -/
def Obligations.IdleKeepsTheAccumulator : Prop :=
  (∀ s : State, exec .idle s = .next s)
    ∧ (∀ (s : State) (w : InputWord) (rest : List InputWord),
        w.getLsbD 10 = false → w.getLsbD 9 = false → w.getLsbD 8 = false → s.pending = w :: rest →
          step s = .next { s with pending := rest })
    ∧ (∀ (a : Byte) (before idles after : List InputWord), (∀ w ∈ idles, decode w = .idle) →
        runWords a (before ++ idles ++ after) = runWords a (before ++ after))
    ∧ encode .idle = 0x000#11

/-- INIT (41_commands.md R73): `ACC` becomes 0x00 from any state, `din` ignored; twice is once; `crc` then reads 0x00, the
checksum of the empty message. -/
def Obligations.InitClearsTheAccumulator : Prop :=
  (∀ s : State, exec .init s = .next { s with acc := 0x00#8 })
    ∧ (∀ (s : State) (w : InputWord) (rest : List InputWord),
        w.getLsbD 10 = false → w.getLsbD 9 = true → w.getLsbD 8 = false → s.pending = w :: rest →
          step s = .next { s with acc := 0x00#8, pending := rest })
    ∧ (∀ s t : State, exec .init s = .next t → exec .init t = .next t ∧ crc t = compute [])
    ∧ encode .init = 0x200#11

/-- UPDATE b (41_commands.md R74): `ACC` becomes `byte_step(ACC, b)`, eight sub-steps on `ACC ^ b`; 0x00 exactly when `b` is
the accumulator; a zero byte changes a non-zero accumulator. -/
def Obligations.UpdateAbsorbsTheByte : Prop :=
  (∀ (s : State) (b : Byte), exec (.update b) s = .next { s with acc := byteStep s.acc b })
    ∧ (∀ (s : State) (w : InputWord) (rest : List InputWord),
        w.getLsbD 10 = false → w.getLsbD 9 = false → w.getLsbD 8 = true → s.pending = w :: rest →
          step s = .next { s with acc := byteStep s.acc (w.extractLsb' 0 8), pending := rest })
    ∧ (∀ a b : Byte, byteStep a b =
        bitStep (bitStep (bitStep (bitStep (bitStep (bitStep (bitStep (bitStep (a ^^^ b)))))))))
    ∧ (∀ a b : Byte, byteStep a b = 0x00#8 ↔ b = a)
    ∧ byteStep 0x00#8 0x00#8 = 0x00#8 ∧ byteStep 0x00#8 0xFF#8 = 0xC4#8
    ∧ (∀ a : Byte, byteStep a 0x00#8 = tStep a ∧ (a ≠ 0x00#8 → byteStep a 0x00#8 ≠ a))
    ∧ (∃ (a b : Byte), byteStep (byteStep a b) b ≠ byteStep a b)
    ∧ ∀ b : Byte, encode (.update b) = 0x100#11 + b.setWidth 11

/-- START b (41_commands.md R75): `ACC` becomes `byte_step(0x00, b)` from any state, the effect of INIT followed by
UPDATE b in one cycle; equal to `compute([b])`. -/
def Obligations.StartBeginsWithTheByte : Prop :=
  (∀ (s : State) (b : Byte), exec (.start b) s = .next { s with acc := byteStep 0x00#8 b })
    ∧ (∀ (s : State) (w : InputWord) (rest : List InputWord),
        w.getLsbD 10 = false → w.getLsbD 9 = true → w.getLsbD 8 = true → s.pending = w :: rest →
          step s = .next { s with acc := byteStep 0x00#8 (w.extractLsb' 0 8), pending := rest })
    ∧ (∀ (s : State) (b : Byte), ∃ t, exec .init s = .next t ∧ exec (.start b) s = exec (.update b) t)
    ∧ (∀ (s t : State) (b : Byte), exec (.start b) s = .next t → exec (.start b) t = .next t ∧ crc t = compute [b])
    ∧ (∀ b : Byte, byteStep 0x00#8 b = tStep b)
    ∧ byteStep 0x00#8 0x00#8 = 0x00#8 ∧ byteStep 0x00#8 0x01#8 = 0x1D#8 ∧ byteStep 0x00#8 0xFF#8 = 0xC4#8
    ∧ ∀ b : Byte, encode (.start b) = 0x300#11 + b.setWidth 11

/-- The frame of every command: no command faults or stops, and none changes anything but `ACC` (41_commands.md R76). -/
def Obligations.CommandsChangeOnlyTheAccumulator : Prop :=
  ∀ (i : Instr) (s : State), ∃ v : Byte, exec i s = .next { s with acc := v }

/-- Side effects and idempotency of each action (20_memory.md R37). -/
def Obligations.IdempotencyOfEachAction : Prop :=
  (∀ s : State, exec .idle s = .next s)
    ∧ (∀ (i : Instr) (s t : State), opensMessage i = true → exec i s = .next t → exec i t = .next t)
    ∧ (∀ s : State, exec .reset s = .next { s with acc := 0x00#8 } ∧ exec .init s = .next { s with acc := 0x00#8 })
    ∧ (∀ (s : State) (b : Byte), exec (.start b) s = .next { s with acc := byteStep 0x00#8 b })
    ∧ (∀ (s t : State) (b : Byte), exec (.update b) s = .next t →
        exec (.update b) t = .next { s with acc := fold s.acc [b, b] })
    ∧ ∀ a : Byte, ∃ b : Byte, fold a [b, b] ≠ fold a [b]

/-! ### The datapath -/

/-- `shl1` doubles modulo 256: bit 7 is discarded, bits 6 to 0 move up, bit 0 becomes 0 (40_datapath.md R60). -/
def Obligations.ShiftDoublesModulo256 : Prop :=
  ∀ v : Byte, (shl1 v).toNat = (2 * v.toNat) % 256 ∧ (shl1 v).getLsbD 0 = false
    ∧ ∀ k, k < 7 → (shl1 v).getLsbD (k + 1) = v.getLsbD k

/-- The sub-step: its defining case split, its two equivalent forms, and its corner cases (40_datapath.md R61). -/
def Obligations.SubStepTestsBitSevenBeforeTheShift : Prop :=
  (∀ c : Byte, bitStep c = if c.getLsbD 7 then shl1 c ^^^ 0x1D#8 else shl1 c)
    ∧ (∀ c : Byte, (c.getLsbD 7 = true ↔ c &&& 0x80#8 ≠ 0#8))
    ∧ (∀ c : Byte, bitStep c = BitVec.ofNat 8 ((2 * c.toNat) % 256) ^^^ BitVec.ofNat 8 (0x1D * (c.getLsbD 7).toNat))
    ∧ (∀ c : Byte,
        (bitStep c).getLsbD 0 = c.getLsbD 7 ∧ (bitStep c).getLsbD 1 = c.getLsbD 0
          ∧ (bitStep c).getLsbD 2 = (c.getLsbD 1 ^^ c.getLsbD 7) ∧ (bitStep c).getLsbD 3 = (c.getLsbD 2 ^^ c.getLsbD 7)
          ∧ (bitStep c).getLsbD 4 = (c.getLsbD 3 ^^ c.getLsbD 7) ∧ (bitStep c).getLsbD 5 = c.getLsbD 4
          ∧ (bitStep c).getLsbD 6 = c.getLsbD 5 ∧ (bitStep c).getLsbD 7 = c.getLsbD 6)
    ∧ bitStep 0x00#8 = 0x00#8 ∧ bitStep 0x80#8 = 0x1D#8 ∧ bitStep 0x7F#8 = 0xFE#8 ∧ bitStep 0xFF#8 = 0xE3#8
    ∧ bitStep 0x8E#8 = 0x01#8

/-- The byte is XORed in whole and exactly eight sub-steps follow, for every byte (40_datapath.md R62, R63); the worked
example is the spec's. -/
def Obligations.ByteStepIsEightSubSteps : Prop :=
  (∀ a b : Byte, byteStep a b = bitStep^[8] (a ^^^ b))
    ∧ (List.range 9).map (fun k => bitStep^[k] (0x00#8 ^^^ 0xFF#8))
        = [0xFF#8, 0xE3#8, 0xDB#8, 0xAB#8, 0x4B#8, 0x96#8, 0x31#8, 0x62#8, 0xC4#8]

/-- `byte_step` is linear over XOR, and its bits are the unrolled XOR equations (40_datapath.md R66). -/
def Obligations.ByteStepIsLinear : Prop :=
  (∀ a b : Byte, byteStep a b = tStep (a ^^^ b) ∧ byteStep a b = tStep a ^^^ tStep b)
    ∧ (∀ x : Byte, tStep x = bitStep^[8] x)
    ∧ (∀ x y : Byte, tStep (x ^^^ y) = tStep x ^^^ tStep y) ∧ tStep 0x00#8 = 0x00#8
    ∧ tStep 0x01#8 = 0x1D#8 ∧ tStep 0x02#8 = 0x3A#8 ∧ tStep 0x04#8 = 0x74#8 ∧ tStep 0x08#8 = 0xE8#8
    ∧ tStep 0x10#8 = 0xCD#8 ∧ tStep 0x20#8 = 0x87#8 ∧ tStep 0x40#8 = 0x13#8 ∧ tStep 0x80#8 = 0x26#8
    ∧ ∀ a b x : Byte, x = a ^^^ b →
        (byteStep a b).getLsbD 0 = (x.getLsbD 0 ^^ x.getLsbD 4 ^^ x.getLsbD 5 ^^ x.getLsbD 6)
          ∧ (byteStep a b).getLsbD 1 = (x.getLsbD 1 ^^ x.getLsbD 5 ^^ x.getLsbD 6 ^^ x.getLsbD 7)
          ∧ (byteStep a b).getLsbD 2 = (x.getLsbD 0 ^^ x.getLsbD 2 ^^ x.getLsbD 4 ^^ x.getLsbD 5 ^^ x.getLsbD 7)
          ∧ (byteStep a b).getLsbD 3 = (x.getLsbD 0 ^^ x.getLsbD 1 ^^ x.getLsbD 3 ^^ x.getLsbD 4)
          ∧ (byteStep a b).getLsbD 4 = (x.getLsbD 0 ^^ x.getLsbD 1 ^^ x.getLsbD 2 ^^ x.getLsbD 6)
          ∧ (byteStep a b).getLsbD 5 = (x.getLsbD 1 ^^ x.getLsbD 2 ^^ x.getLsbD 3 ^^ x.getLsbD 7)
          ∧ (byteStep a b).getLsbD 6 = (x.getLsbD 2 ^^ x.getLsbD 3 ^^ x.getLsbD 4)
          ∧ (byteStep a b).getLsbD 7 = (x.getLsbD 3 ^^ x.getLsbD 4 ^^ x.getLsbD 5)

/-- `T` and both sections of `byte_step` are bijections; every value is reachable from 0x00 by one byte; the result is 0x00
exactly when the operands are equal; `T` has order 255 at 0x01 (40_datapath.md R67). -/
def Obligations.ByteStepIsABijection : Prop :=
  Function.Bijective tStep
    ∧ (∀ b : Byte, Function.Bijective fun a => byteStep a b)
    ∧ (∀ a : Byte, Function.Bijective fun b => byteStep a b)
    ∧ (∀ v : Byte, ∃ b, byteStep 0x00#8 b = v)
    ∧ (∀ a b : Byte, byteStep a b = 0x00#8 ↔ a = b)
    ∧ byteStep 0x00#8 0x00#8 = 0x00#8
    ∧ tStep^[255] 0x01#8 = 0x01#8 ∧ ∀ k, 0 < k → k < 255 → tStep^[k] 0x01#8 ≠ 0x01#8

/-- A byte read as a polynomial over GF(2), bit `k` the coefficient of `x^k` (40_datapath.md R68). -/
noncomputable def Sys2Proof.bytePoly (v : Byte) : Polynomial (ZMod 2) :=
  ∑ k ∈ Finset.range 8, if v.getLsbD k then Polynomial.X ^ k else 0

/-- `G = x^8 + x^4 + x^3 + x^2 + 1` (40_datapath.md R68, 90_conflicts.md C1). -/
noncomputable def Sys2Proof.generatorPoly : Polynomial (ZMod 2) :=
  Polynomial.X ^ 8 + Polynomial.X ^ 4 + Polynomial.X ^ 3 + Polynomial.X ^ 2 + 1

/-- The message polynomial: the bytes in order, most significant bit first (40_datapath.md R68). -/
noncomputable def Sys2Proof.messagePoly : List Byte → Polynomial (ZMod 2)
  | [] => 0
  | b :: bs => Sys2Proof.bytePoly b * Polynomial.X ^ (8 * bs.length) + Sys2Proof.messagePoly bs

/-- In polynomial terms the core divides by `G`: a sub-step multiplies by `x`, a byte by `x^8`, and the checksum is the
remainder of the message polynomial times `x^8` (40_datapath.md R68). -/
def Obligations.ChecksumIsThePolynomialRemainder : Prop :=
  (∀ c : Byte, Sys2Proof.bytePoly (bitStep c) = (Sys2Proof.bytePoly c * Polynomial.X) %ₘ Sys2Proof.generatorPoly)
    ∧ (∀ a b : Byte, Sys2Proof.bytePoly (byteStep a b)
        = (Sys2Proof.bytePoly (a ^^^ b) * Polynomial.X ^ 8) %ₘ Sys2Proof.generatorPoly)
    ∧ ∀ bytes : List Byte, Sys2Proof.bytePoly (fold 0x00#8 bytes)
        = (Sys2Proof.messagePoly bytes * Polynomial.X ^ 8) %ₘ Sys2Proof.generatorPoly

/-! ### The message level -/

/-- The streaming law of `fold` and `compute`; after the words that carry the first k bytes, however the message is begun and
with any pauses, `crc` shows the checksum of that prefix, and a further piece, with any pauses, continues it; a second message
without an opening command is folded onto the first (42_compute.md R86). -/
def Obligations.StreamingLaw : Prop :=
  (∀ (a : Byte) (xs ys : List Byte), fold a (xs ++ ys) = fold (fold a xs) ys)
    ∧ (∀ xs ys : List Byte, compute (xs ++ ys) = fold (compute xs) ys)
    ∧ (∀ (s : State) (bytes : List Byte) (rest : List InputWord) (k : Nat), 1 ≤ k → k ≤ bytes.length →
        s.pending = messageWords bytes ++ rest →
          ∃ t, runSteps k s = .next t ∧ crc t = compute (bytes.take k))
    ∧ (∀ (m : List InputWord) (bytes : List Byte) (k : Nat), carriedMessage m = some bytes → 1 ≤ k → k ≤ bytes.length →
        ∃ first more, m = first ++ more ∧ carriedMessage first = some (bytes.take k)
          ∧ absorbedBytes more = some (bytes.drop k))
    ∧ (∀ (s : State) (first more rest : List InputWord) (xs ys : List Byte), carriedMessage first = some xs →
        absorbedBytes more = some ys → s.pending = first ++ more ++ rest →
          carriedMessage (first ++ more) = some (xs ++ ys)
            ∧ (∃ t, runSteps first.length s = .next t ∧ crc t = compute xs)
            ∧ ∃ t, runSteps (first.length + more.length) s = .next t ∧ crc t = compute (xs ++ ys))
    ∧ ∀ (s : State) (xs ys : List Byte) (rest : List InputWord),
        s.pending = messageWords xs ++ wordsOf (ys.map .update) ++ rest →
          ∃ t, runSteps ((messageWords xs).length + ys.length) s = .next t ∧ crc t = compute (xs ++ ys)

/-- A host obtains `compute(S)` by a command sequence that carries S, from every state: INIT alone, or START and UPDATEs, or
INIT or RESET and UPDATEs, with IDLE cycles anywhere, preceded by anything at all (42_compute.md R81). -/
def Obligations.MessageRunComputesTheChecksum : Prop :=
  (∀ bytes : List Byte, carriedMessage (messageWords bytes) = some bytes
      ∧ carriedMessage (wordsOf (messageAfter .init bytes)) = some bytes
      ∧ carriedMessage (wordsOf (messageAfter .reset bytes)) = some bytes)
    ∧ (∀ (ws idles ws' : List InputWord), (∀ w ∈ idles, decode w = .idle) →
        carriedMessage (ws ++ idles ++ ws') = carriedMessage (ws ++ ws'))
    ∧ ∀ (s : State) (before m rest : List InputWord) (bytes : List Byte), carriedMessage m = some bytes →
        s.pending = before ++ m ++ rest →
          runSteps (before.length + m.length) s = .next { s with acc := compute bytes, pending := rest }

/-- The result is on `crc` from the cycle after the last byte for as long as the host drives IDLE, and is not cleared
(42_compute.md R85, 70_reset_and_hazards.md R105). -/
def Obligations.ResultStaysWhileIdle : Prop :=
  ∀ (s : State) (m idles rest : List InputWord) (bytes : List Byte) (k : Nat), carriedMessage m = some bytes →
    (∀ w ∈ idles, decode w = .idle) → k ≤ idles.length → s.pending = m ++ idles ++ rest →
      ∃ t, runSteps (m.length + k) s = .next t ∧ crc t = compute bytes

/-- The empty message has checksum 0x00: INIT or RESET, then `crc` (42_compute.md R82). -/
def Obligations.EmptyMessageIsZero : Prop :=
  compute [] = 0x00#8
    ∧ (∀ s : State, ∃ t, exec .init s = .next t ∧ crc t = 0x00#8)
    ∧ ∀ s : State, ∃ t, exec .reset s = .next t ∧ crc t = 0x00#8

/-- No memory of earlier calls: from any two states, after anything, the same message gives the same result; a run that
begins with UPDATE does not have this property (42_compute.md R83). -/
def Obligations.NoMemoryOfEarlierMessages : Prop :=
  (∀ (s s' : State) (before before' m rest rest' : List InputWord) (bytes : List Byte), carriedMessage m = some bytes →
      s.pending = before ++ m ++ rest → s'.pending = before' ++ m ++ rest' →
        ∃ t t', runSteps (before.length + m.length) s = .next t
          ∧ runSteps (before'.length + m.length) s' = .next t' ∧ crc t = crc t')
    ∧ ∀ (a a' : Byte) (bytes : List Byte), a ≠ a' →
        runWords a (wordsOf (bytes.map .update)) ≠ runWords a' (wordsOf (bytes.map .update))

/-- Order sensitivity: two bytes in the other order have another checksum unless they are equal; the spec's two
counterexample pairs (42_compute.md R84). -/
def Obligations.ChecksumDependsOnTheOrder : Prop :=
  (∀ a b : Byte, compute [a, b] = compute [b, a] ↔ a = b)
    ∧ Function.Injective (fun x : Byte => tStep x ^^^ x)
    ∧ compute [0x01#8, 0x02#8] = 0x76#8 ∧ compute [0x02#8, 0x01#8] = 0x85#8
    ∧ compute [0xFF#8, 0x00#8] = 0x41#8 ∧ compute [0x00#8, 0xFF#8] = 0xC4#8

/-- Single-byte messages: one transition from 0, with the spot checks as 90_conflicts.md C2 settles them (42_compute.md R89). -/
def Obligations.SingleByteMessages : Prop :=
  (∀ b : Byte, compute [b] = byteStep 0x00#8 b ∧ compute [b] = tStep b)
    ∧ compute [0x00#8] = 0x00#8 ∧ compute [0xFF#8] = 0xC4#8 ∧ compute [0x01#8] = 0x1D#8

/-- The demonstration string gives 0xC7, the value the rules give; the original's output is in no source (42_compute.md
R88; the ASCII codes are log 13, the value log 14). -/
def Obligations.DemonstrationString : Prop :=
  asciiCodes ['A', 'B', 'C', '3', '1', '3', '3', '7', '-', 'A', '1', '2', '3', '-', 'B', '4', '5', '6',
      '-', '7', '8', '9', 'E', '-', 'D', 'E', 'A', 'D', 'B', 'E', 'E', 'F', 'C', 'A', 'F', 'E']
    = .ok ([0x41#8, 0x42#8, 0x43#8, 0x33#8, 0x31#8, 0x33#8, 0x33#8, 0x37#8, 0x2D#8, 0x41#8, 0x31#8, 0x32#8]
        ++ [0x33#8, 0x2D#8, 0x42#8, 0x34#8, 0x35#8, 0x36#8, 0x2D#8, 0x37#8, 0x38#8, 0x39#8, 0x45#8, 0x2D#8]
        ++ [0x44#8, 0x45#8, 0x41#8, 0x44#8, 0x42#8, 0x45#8, 0x45#8, 0x46#8, 0x43#8, 0x41#8, 0x46#8, 0x45#8])
    ∧ compute ([0x41#8, 0x42#8, 0x43#8, 0x33#8, 0x31#8, 0x33#8, 0x33#8, 0x37#8, 0x2D#8, 0x41#8, 0x31#8, 0x32#8]
        ++ [0x33#8, 0x2D#8, 0x42#8, 0x34#8, 0x35#8, 0x36#8, 0x2D#8, 0x37#8, 0x38#8, 0x39#8, 0x45#8, 0x2D#8]
        ++ [0x44#8, 0x45#8, 0x41#8, 0x44#8, 0x42#8, 0x45#8, 0x45#8, 0x46#8, 0x43#8, 0x41#8, 0x46#8, 0x45#8]) = 0xC7#8

/-- Leading zero bytes are invisible, and appending the checksum gives zero (42_compute.md R87). -/
def Obligations.LeadingZerosAndAppendedChecksum : Prop :=
  (∀ bytes : List Byte, compute (0x00#8 :: bytes) = compute bytes)
    ∧ (∀ (n : Nat) (bytes : List Byte), compute (List.replicate n 0x00#8 ++ bytes) = compute bytes)
    ∧ (∀ n : Nat, compute (List.replicate n 0x00#8) = 0x00#8)
    ∧ ∀ bytes : List Byte, compute (bytes ++ [compute bytes]) = 0x00#8

/-! ### Reset, power-up and rules of use -/

/-- The complete state after reset: `ACC`, and so `crc`, is 0x00, and a message may follow directly with UPDATE commands
(70_reset_and_hazards.md R101). -/
def Obligations.ResetStateBeginsAMessage : Prop :=
  State.reset.acc = 0x00#8 ∧ crc State.reset = 0x00#8
    ∧ (∀ s t : State, exec .reset s = .next t → t.acc = State.reset.acc)
    ∧ ∀ (bytes : List Byte) (rest : List InputWord),
        runSteps bytes.length { State.reset with pending := wordsOf (bytes.map .update) ++ rest }
          = .next { State.reset with acc := compute bytes, pending := rest }

/-- The power-up value is open: whatever it is, RESET, INIT and START end it, IDLE keeps it, UPDATE propagates it, and can
make of it any byte (10_state.md R21, 93_implementation_defined.md U2, 40_datapath.md R67). That power-up gives `ACC` an open
byte, so that UPDATE runs and does not fault, is the model's choice between the two treatments R21 allows (log 3). The
statement rests on no value of that byte. -/
def Obligations.PowerUpValueIsEndedByWritingCommands : Prop :=
  State.powerUp.acc = Config.accPowerup
    ∧ (∀ (i : Instr) (s : State) (a : Byte), opensMessage i = true → exec i { s with acc := a } = exec i s)
    ∧ exec .idle State.powerUp = .next State.powerUp
    ∧ (∀ b : Byte, exec (.update b) State.powerUp = .next { State.powerUp with acc := byteStep Config.accPowerup b })
    ∧ ∀ b v : Byte, ∃ a, ∀ s : State, exec (.update b) { s with acc := a } = .next { s with acc := v }

/-- A message sent with UPDATE commands only is folded onto the one before it; the spec's worked case
(70_reset_and_hazards.md R103). -/
def Obligations.MissingOpeningFoldsOnto : Prop :=
  (∀ (xs ys : List Byte) (a : Byte),
      runWords a (messageWords xs ++ wordsOf (ys.map .update)) = compute (xs ++ ys)
        ∧ compute (xs ++ ys) = fold (compute xs) ys)
    ∧ compute [0xFF#8] = 0xC4#8 ∧ byteStep 0xC4#8 0x01#8 = 0x5C#8 ∧ tStep 0xC5#8 = 0x5C#8
    ∧ compute [0xFF#8, 0x01#8] = 0x5C#8 ∧ compute [0x01#8] = 0x1D#8

/-- Every saved value can be restored by exactly one START (70_reset_and_hazards.md R104, 40_datapath.md R67). -/
def Obligations.OneStartRestoresAnyValue : Prop :=
  ∀ v : Byte, ∃ b : Byte, (∀ s : State, exec (.start b) s = .next { s with acc := v })
    ∧ ∀ b' : Byte, (∃ s : State, exec (.start b') s = .next { s with acc := v }) → b' = b

/-- Holding `vld` absorbs the byte once in every cycle (70_reset_and_hazards.md R106). -/
def Obligations.HeldValidAbsorbsInEveryCycle : Prop :=
  ∀ (s : State) (b : Byte) (n : Nat) (rest : List InputWord),
    s.pending = List.replicate n (portsWord false false true b) ++ rest →
      runSteps n s = .next { s with acc := fold s.acc (List.replicate n b), pending := rest }

/-- A message of N bytes takes N cycles begun with START, N + 1 begun with INIT or RESET: from every state, that many steps
take exactly its words and leave its checksum (70_reset_and_hazards.md R109). -/
def Obligations.CyclesOfAMessage : Prop :=
  (∀ bytes : List Byte, bytes ≠ [] → (messageWords bytes).length = bytes.length)
    ∧ (messageWords []).length = 1
    ∧ (∀ bytes : List Byte, (wordsOf (messageAfter .init bytes)).length = bytes.length + 1
        ∧ (wordsOf (messageAfter .reset bytes)).length = bytes.length + 1)
    ∧ (∀ (s : State) (bytes : List Byte) (rest : List InputWord), bytes ≠ [] → s.pending = messageWords bytes ++ rest →
        runSteps bytes.length s = .next { s with acc := compute bytes, pending := rest })
    ∧ (∀ (s : State) (rest : List InputWord), s.pending = messageWords [] ++ rest →
        runSteps 1 s = .next { s with acc := compute [], pending := rest })
    ∧ ∀ (s : State) (opening : Instr) (bytes : List Byte) (rest : List InputWord), opening = .init ∨ opening = .reset →
        s.pending = wordsOf (messageAfter opening bytes) ++ rest →
          runSteps (bytes.length + 1) s = .next { s with acc := compute bytes, pending := rest }

/-- The invariant of a run: until a further free word is taken, every step keeps the value the accumulator will have after
the words still listed (41_commands.md R70, 20_memory.md R40). -/
def Obligations.StepsKeepTheRunOnCourse : Prop :=
  ∀ (r : Byte) (n : Nat) (s t : State), OnCourse r n s → step s = .next t → OnCourse r n t

/-- The invariant holds at reset with the result 0x00 and the count 0, because the model's reset lists no word and has taken
no free word, both the model's choice (logs 1 and 2), and `ACC` is 0x00 (70_reset_and_hazards.md R101); and at every state
with the result its listed words give, which is the definition of the invariant. -/
def Obligations.RunsBeginOnCourse : Prop :=
  OnCourse 0x00#8 0 State.reset ∧ ∀ s : State, OnCourse (runWords s.acc s.pending) s.drawn s

/-- A message begins on course for its checksum: at every state whose listed words carry it, the invariant holds with the
result `compute` gives, also when IDLE words follow it (42_compute.md R81, R85; the count of free words is log 2). -/
def Obligations.MessagesBeginOnCourse : Prop :=
  ∀ (s : State) (m idles : List InputWord) (bytes : List Byte), carriedMessage m = some bytes →
    (∀ w ∈ idles, decode w = .idle) → s.pending = m ++ idles → OnCourse (compute bytes) s.drawn s

/-! ### The boundary and the assembler -/

/-- `compute_checked`: the error if and only if some element is out of range, and then for the first such element; else
the checksum of the elements as bytes; no command is issued for an element out of range, whichever way the wrapper checks
(60_exceptions.md R92). Which commands a wrapper that checks as it reads has driven before the error, in the last clause, is
the model's choice (log 11). -/
def Obligations.ComputeCheckedRejectsNonBytes : Prop :=
  (∀ (vs : List Int) (i : Nat) (v : Int),
      computeChecked vs = .error { index := i, value := v }
        ↔ vs[i]? = some v ∧ (v < 0 ∨ 255 < v) ∧ ∀ (j : Nat) (u : Int), j < i → vs[j]? = some u → 0 ≤ u ∧ u ≤ 255)
    ∧ (∀ (vs : List Int) (c : Byte),
        computeChecked vs = .ok c ↔ ∃ bytes : List Byte, vs = bytes.map (fun b => (b.toNat : Int)) ∧ c = compute bytes)
    ∧ (∀ vs : List Int, (∃ e, computeChecked vs = .error e) ↔ ∃ v ∈ vs, v < 0 ∨ 255 < v)
    ∧ (∀ vs : List Int, (∃ v ∈ vs, v < 0 ∨ 255 < v) → issueAfterCheck vs = [])
    ∧ ∀ (vs : List Int) (w : InputWord), w ∈ issueAsRead vs →
        (vs.takeWhile inByteRange = [] ∧ decode w = .init)
          ∨ ∃ b : Byte, (b.toNat : Int) ∈ vs.takeWhile inByteRange ∧ (decode w = .start b ∨ decode w = .update b)

/-- Either order of checking gives the same outcome of the call; nothing but the valid elements before the first invalid
one is ever driven; after an error the accumulator holds the checksum of that prefix, 0x00 when it is empty, for any command
sequence that carries the prefix (60_exceptions.md R93). That `issueAsRead` begins the prefix with START, and with INIT when
it is empty, is the model's choice (log 11). -/
def Obligations.WrapperOrdersHaveOneOutcome : Prop :=
  (∀ (a : Byte) (vs : List Int),
      (wrapperCall issueAfterCheck a vs).2 = computeChecked vs ∧ (wrapperCall issueAsRead a vs).2 = computeChecked vs)
    ∧ (∀ vs : List Int, issueAsRead vs = messageWords (validPrefix vs))
    ∧ (∀ vs : List Int, (validPrefix vs).map (fun b => (b.toNat : Int)) = vs.takeWhile inByteRange)
    ∧ (∀ (a : Byte) (vs : List Int), (wrapperCall issueAsRead a vs).1 = compute (validPrefix vs))
    ∧ (∀ (a : Byte) (vs : List Int) (m : List InputWord), carriedMessage m = some (validPrefix vs) →
        wrapperCall (fun _ => m) a vs = (compute (validPrefix vs), computeChecked vs))
    ∧ (∀ (a : Byte) (v : Int) (more : List Int), v < 0 ∨ 255 < v →
        issueAsRead (v :: more) = [encode .init]
          ∧ wrapperCall issueAsRead a (v :: more) = (0x00#8, .error { index := 0, value := v }))
    ∧ ∀ (a : Byte) (vs : List Int), (∃ v ∈ vs, v < 0 ∨ 255 < v) → (wrapperCall issueAfterCheck a vs).1 = a

/-- The 8-bit port takes every byte and can be given nothing else (60_exceptions.md R91). -/
def Obligations.PortTakesExactlyTheBytes : Prop :=
  (∀ v : Int, (∃ b : Byte, (b.toNat : Int) = v) ↔ 0 ≤ v ∧ v ≤ 255)
    ∧ ∀ (b : Byte) (s : State), (∃ t, exec (.update b) s = .next t) ∧ ∃ t, exec (.start b) s = .next t

/-- An operand of UPDATE, START or MSG in 0 to 255 is encoded as it stands; one outside is rejected and not truncated, and of
several in one MSG the first is reported (30_encoding.md R57, 60_exceptions.md R92, R96). That the index counts within the
operands of the line is the model's choice (log 18). -/
def Obligations.AssemblerRejectsNonBytes : Prop :=
  (∀ b : Byte, assemble [.update (b.toNat : Int)] = .ok [encode (.update b)]
      ∧ assemble [.start (b.toNat : Int)] = .ok [encode (.start b)])
    ∧ (∀ v : Int, v < 0 ∨ 255 < v →
        assemble [.update v] = .error (.invalidByte { index := 0, value := v })
          ∧ assemble [.start v] = .error (.invalidByte { index := 0, value := v }))
    ∧ (∀ bytes : List Byte, assemble [.msg (bytes.map fun b => (b.toNat : Int))] = .ok (messageWords bytes))
    ∧ (∀ (vs : List Int) (i : Nat) (v : Int),
        assemble [.msg vs] = .error (.invalidByte { index := i, value := v })
          ↔ vs[i]? = some v ∧ (v < 0 ∨ 255 < v) ∧ ∀ (j : Nat) (u : Int), j < i → vs[j]? = some u → 0 ≤ u ∧ u ≤ 255)
    ∧ ∀ vs : List Int, (∃ v ∈ vs, v < 0 ∨ 255 < v) → ∃ e, assemble [.msg vs] = .error (.invalidByte e)

/-- The pseudo-instructions and their expansions; INIT followed by UPDATEs is equivalent to MSG but for one cycle
(30_encoding.md R58). -/
def Obligations.PseudoInstructionsExpand : Prop :=
  assemble [.read] = .ok [0x000#11]
    ∧ (∀ n : Nat, assemble [.wait n] = .ok (List.replicate n 0x000#11))
    ∧ (∀ (b : Byte) (bs : List Byte), assemble [.msg ((b :: bs).map fun x => (x.toNat : Int))]
        = .ok (encode (.start b) :: bs.map fun x => encode (.update x)))
    ∧ assemble [.msg []] = .ok [0x200#11]
    ∧ (∀ (text : List Char) (codes : List Byte), asciiCodes text = .ok codes →
        assemble [.computeText text] = assemble [.msg (codes.map fun x => (x.toNat : Int)), .read])
    ∧ ∀ (a : Byte) (b : Byte) (bs : List Byte),
        runWords a (wordsOf (messageAfter .init (b :: bs))) = runWords a (messageWords (b :: bs))
          ∧ (wordsOf (messageAfter .init (b :: bs))).length = (messageWords (b :: bs)).length + 1

/-- A word with bit 10 set prints as RESET, else bits 9:8 choose IDLE, UPDATE, INIT or START with the byte as 0x and two
digits; assembling the spelling of any word gives it back up to ignored bits, and so does its reversible spelling
(30_encoding.md R59). -/
def Obligations.DisassemblyAssemblesBack : Prop :=
  (∀ w : InputWord,
      (w.getLsbD 10 = true → disassemble w = ['R', 'E', 'S', 'E', 'T'])
        ∧ (w.getLsbD 10 = false → w.getLsbD 9 = false → w.getLsbD 8 = false → disassemble w = ['I', 'D', 'L', 'E'])
        ∧ (w.getLsbD 10 = false → w.getLsbD 9 = false → w.getLsbD 8 = true →
            disassemble w = ['U', 'P', 'D', 'A', 'T', 'E', ' '] ++ byteText (w.extractLsb' 0 8))
        ∧ (w.getLsbD 10 = false → w.getLsbD 9 = true → w.getLsbD 8 = false → disassemble w = ['I', 'N', 'I', 'T'])
        ∧ (w.getLsbD 10 = false → w.getLsbD 9 = true → w.getLsbD 8 = true →
            disassemble w = ['S', 'T', 'A', 'R', 'T', ' '] ++ byteText (w.extractLsb' 0 8)))
    ∧ (∀ w : InputWord, assembleText (disassemble w) = .ok [encode (decode w)])
    ∧ (∀ w : InputWord, assembleText (disassembleWhole w) = .ok [encode (decode w)])
    ∧ ∀ w : InputWord, encode (decode w) = w &&& usedBits (decode w)

/-- Assembling the listing of any program, one command a line, gives back its words up to ignored bits, in order
(30_encoding.md R57, R59). The listing ends in a line end, and that the blank line after it costs no cycle is the model's
choice (log 12). -/
def Obligations.ListingAssemblesBack : Prop :=
  ∀ ws : List InputWord, assembleText (listing ws) = .ok (ws.map fun w => encode (decode w))
end

