-- ==== Sys2Proof/Laws/Boundary.lean ====
section
/-! SUPPORT. The small lemmas of the boundary check: what the range check says, when nothing is invalid, and that an
operation of the boundary is decided by the first invalid element alone. -/

namespace Sys2Proof.Machine

theorem inByteRange_iff (v : Int) : inByteRange v = true ↔ 0 ≤ v ∧ v ≤ 255 := by
  simp [inByteRange]

/-- The value of a byte passes the check. -/
@[simp] theorem inByteRange_toNat (b : Byte) : inByteRange (b.toNat : Int) = true :=
  (inByteRange_iff _).2 (by omega)

@[simp] theorem byteOfInt_toNat (b : Byte) : byteOfInt (b.toNat : Int) = b := by
  simp [byteOfInt]

/-- A checked element becomes the byte of the same value: nothing is cut off. -/
theorem toNat_byteOfInt {v : Int} (h : inByteRange v = true) : ((byteOfInt v).toNat : Int) = v := by
  rw [inByteRange_iff] at h
  simp [byteOfInt]
  omega

theorem firstInvalid_cons_valid {v : Int} (h : inByteRange v = true) (i : Nat) (vs : List Int) :
    firstInvalid i (v :: vs) = firstInvalid (i + 1) vs := by
  simp [firstInvalid, h]

theorem firstInvalid_cons_invalid {v : Int} (h : inByteRange v = false) (i : Nat) (vs : List Int) :
    firstInvalid i (v :: vs) = some { index := i, value := v } := by
  simp [firstInvalid, h]

/-- The bytes of a list of byte values have no invalid element. -/
@[simp] theorem firstInvalid_bytes (i : Nat) (bytes : List Byte) :
    firstInvalid i (bytes.map fun b => (b.toNat : Int)) = none := by
  induction bytes generalizing i with
  | nil => rfl
  | cons b bytes ih => rw [List.map_cons, firstInvalid_cons_valid (inByteRange_toNat b), ih]

@[simp] theorem validPrefix_bytes (bytes : List Byte) :
    validPrefix (bytes.map fun b => (b.toNat : Int)) = bytes := by
  induction bytes with
  | nil => rfl
  | cons b bytes ih => simp [validPrefix, ih]

theorem checkedBytes_of_invalid {vs : List Int} {e : InvalidByteValue} (h : firstInvalid 0 vs = some e) :
    checkedBytes vs = .error e := by
  simp [checkedBytes, h]

theorem checkedBytes_of_valid {vs : List Int} (h : firstInvalid 0 vs = none) : checkedBytes vs = .ok (validPrefix vs) := by
  simp [checkedBytes, h]

/-- A call of `compute_checked` is decided by the first invalid element. -/
theorem computeChecked_eq (vs : List Int) :
    computeChecked vs = match firstInvalid 0 vs with
      | some e => .error e
      | none => .ok (compute (validPrefix vs)) := by
  unfold computeChecked checkedBytes
  cases firstInvalid 0 vs <;> rfl

/-- One line's commands, as a program of that line alone. -/
theorem assemble_singleton (l : SourceLine) :
    assemble [l] = match expandLine l with
      | .ok cmds => .ok (wordsOf cmds)
      | .error e => .error e := by
  cases h : expandLine l <;> simp [assemble, h]

/-- A MSG line is decided by its first invalid operand. -/
theorem assemble_msg (vs : List Int) :
    assemble [.msg vs] = match firstInvalid 0 vs with
      | some e => .error (.invalidByte e)
      | none => .ok (messageWords (validPrefix vs)) := by
  rw [assemble_singleton]
  cases h : firstInvalid 0 vs with
  | none => simp [expandLine, asmBytes, checkedBytes_of_valid h, messageWords]
  | some e => simp [expandLine, asmBytes, checkedBytes_of_invalid h]

end Sys2Proof.Machine
end

