-- ==== Sys2Proof/Laws/Datapath.lean ====
section
/-! SUPPORT. The small lemmas of the datapath and of the two folds. -/

namespace Sys2Proof.Machine

theorem highBit_eq (c : Byte) : highBit c = c.getLsbD 7 := by
  revert c
  decide +kernel

/-- A sub-step is linear over XOR. -/
theorem bitStep_xor (x y : Byte) : bitStep (x ^^^ y) = bitStep x ^^^ bitStep y := by
  have hs : shl1 (x ^^^ y) = shl1 x ^^^ shl1 y := by
    simp [shl1, BitVec.shiftLeft_xor_distrib]
  have hb : highBit (x ^^^ y) = (highBit x ^^ highBit y) := by
    simp [highBit_eq]
  unfold bitStep
  rw [hs, hb]
  have hp : ∀ u v p : Byte, u ^^^ v = u ^^^ p ^^^ (v ^^^ p) := by
    intro u v p
    rw [show u ^^^ p ^^^ (v ^^^ p) = u ^^^ v ^^^ (p ^^^ p) by ac_rfl]
    simp
  cases highBit x <;> cases highBit y
  · rfl
  · exact BitVec.xor_assoc _ _ _
  · show shl1 x ^^^ shl1 y ^^^ Config.poly = shl1 x ^^^ Config.poly ^^^ shl1 y
    ac_rfl
  · exact hp _ _ _

theorem byteStep_eq_tStep (a b : Byte) : byteStep a b = tStep (a ^^^ b) := rfl

@[simp] theorem fold_nil (a : Byte) : fold a [] = a := rfl
@[simp] theorem fold_cons (a b : Byte) (rest : List Byte) : fold a (b :: rest) = fold (byteStep a b) rest := rfl

@[simp] theorem runWords_nil (a : Byte) : runWords a [] = a := rfl
@[simp] theorem runWords_cons (a : Byte) (w : InputWord) (ws : List InputWord) :
    runWords a (w :: ws) = runWords (nextAcc a w) ws := rfl

@[simp] theorem wordsOf_nil : wordsOf [] = [] := rfl
@[simp] theorem wordsOf_cons (i : Instr) (is : List Instr) : wordsOf (i :: is) = encode i :: wordsOf is := rfl

theorem runWords_append (a : Byte) (us vs : List InputWord) :
    runWords a (us ++ vs) = runWords (runWords a us) vs := by
  induction us generalizing a with
  | nil => rfl
  | cons w us ih => exact ih (nextAcc a w)

end Sys2Proof.Machine
end

