-- ==== Sys2Proof/Laws/Decode.lean ====
section
/-! SUPPORT. What the decoder answers, by the three opcode bits. -/

namespace Sys2Proof

theorem decode_of_rst {w : InputWord} (hr : rstBit w = true) : decode w = .reset := by
  simp [decode, hr]

theorem decode_of_idle {w : InputWord} (hr : rstBit w = false) (hc : clrBit w = false) (hv : vldBit w = false) :
    decode w = .idle := by
  simp [decode, hr, hc, hv]

theorem decode_of_update {w : InputWord} (hr : rstBit w = false) (hc : clrBit w = false) (hv : vldBit w = true) :
    decode w = .update (dinField w) := by
  simp [decode, hr, hc, hv]

theorem decode_of_init {w : InputWord} (hr : rstBit w = false) (hc : clrBit w = true) (hv : vldBit w = false) :
    decode w = .init := by
  simp [decode, hr, hc, hv]

theorem decode_of_start {w : InputWord} (hr : rstBit w = false) (hc : clrBit w = true) (hv : vldBit w = true) :
    decode w = .start (dinField w) := by
  simp [decode, hr, hc, hv]

/-- The five cases of the decoder, each with its opcode bits. -/
theorem decode_cases (w : InputWord) :
    (rstBit w = true ∧ decode w = .reset)
      ∨ (rstBit w = false ∧ clrBit w = false ∧ vldBit w = false ∧ decode w = .idle)
      ∨ (rstBit w = false ∧ clrBit w = false ∧ vldBit w = true ∧ decode w = .update (dinField w))
      ∨ (rstBit w = false ∧ clrBit w = true ∧ vldBit w = false ∧ decode w = .init)
      ∨ (rstBit w = false ∧ clrBit w = true ∧ vldBit w = true ∧ decode w = .start (dinField w)) := by
  cases hr : rstBit w <;> cases hc : clrBit w <;> cases hv : vldBit w <;> simp [decode, hr, hc, hv]

end Sys2Proof
end

