-- ==== Sys2Proof/Laws/State.lean ====
section
/-! SUPPORT. One lemma per field per update of the state, true by rfl. -/

namespace Sys2Proof.Machine

@[simp] theorem writeAcc_acc (v : Byte) (s : State) : (writeAcc v s).acc = v := rfl
@[simp] theorem writeAcc_pending (v : Byte) (s : State) : (writeAcc v s).pending = s.pending := rfl
@[simp] theorem writeAcc_drawn (v : Byte) (s : State) : (writeAcc v s).drawn = s.drawn := rfl

@[simp] theorem clearAcc_acc (s : State) : (clearAcc s).acc = 0x00#8 := rfl
@[simp] theorem clearAcc_pending (s : State) : (clearAcc s).pending = s.pending := rfl
@[simp] theorem clearAcc_drawn (s : State) : (clearAcc s).drawn = s.drawn := rfl

@[simp] theorem absorb_acc (a b : Byte) (s : State) : (absorb a b s).acc = byteStep a b := rfl
@[simp] theorem absorb_pending (a b : Byte) (s : State) : (absorb a b s).pending = s.pending := rfl
@[simp] theorem absorb_drawn (a b : Byte) (s : State) : (absorb a b s).drawn = s.drawn := rfl

@[simp] theorem placeWord_acc (w : InputWord) (s : State) : (placeWord w s).acc = s.acc := rfl
@[simp] theorem placeWord_pending (w : InputWord) (s : State) : (placeWord w s).pending = w :: s.pending.tail := rfl
@[simp] theorem placeWord_drawn (w : InputWord) (s : State) : (placeWord w s).drawn = s.drawn := rfl

@[simp] theorem readAcc_eq (s : State) : readAcc s = s.acc := rfl
@[simp] theorem crc_eq (s : State) : crc s = s.acc := rfl

@[simp] theorem reset_acc : State.reset.acc = 0x00#8 := rfl
@[simp] theorem reset_pending : State.reset.pending = [] := rfl
@[simp] theorem reset_drawn : State.reset.drawn = 0 := rfl

@[simp] theorem powerUp_acc : State.powerUp.acc = Config.accPowerup := rfl
@[simp] theorem powerUp_pending : State.powerUp.pending = [] := rfl
@[simp] theorem powerUp_drawn : State.powerUp.drawn = 0 := rfl

end Sys2Proof.Machine
end

