-- ==== Sys2Proof/Laws/Ops.lean ====
section
/-! SUPPORT. One lemma per shared operation, saying once everything it can do. -/

namespace Sys2Proof.Machine

theorem clearAcc_eq (s : State) : clearAcc s = { s with acc := 0x00#8 } := rfl

theorem absorb_eq (a b : Byte) (s : State) : absorb a b s = { s with acc := byteStep a b } := rfl

theorem accOperand_eq (clr : Bool) (s : State) : accOperand clr s = if clr then 0x00#8 else s.acc := rfl

theorem presented_of_cons {s : State} {w : InputWord} {rest : List InputWord} (h : s.pending = w :: rest) :
    presented s = w := by
  simp [presented, h]

theorem presented_of_nil {s : State} (h : s.pending = []) : presented s = Config.hostWord s.drawn := by
  simp [presented, h]

theorem advanceHost_of_cons {s : State} {w : InputWord} {rest : List InputWord} (h : s.pending = w :: rest) :
    advanceHost s = { s with pending := rest } := by
  simp [advanceHost, h]

theorem advanceHost_of_nil {s : State} (h : s.pending = []) : advanceHost s = { s with drawn := s.drawn + 1 } := by
  simp [advanceHost, h]

/-- The core's own state is not the host's to move. -/
@[simp] theorem advanceHost_acc (s : State) : (advanceHost s).acc = s.acc := by
  cases h : s.pending with
  | nil => rw [advanceHost_of_nil h]
  | cons w rest => rw [advanceHost_of_cons h]

theorem inputWordOfNat_of_lt {n : Nat} (h : n < 2048) : inputWordOfNat n = .ok (BitVec.ofNat 11 n) := by
  simp [inputWordOfNat, h]

theorem inputWordOfNat_of_ge {n : Nat} (h : 2048 ≤ n) : inputWordOfNat n = .error (.noSuchPortBit n) := by
  simp [inputWordOfNat, h]

theorem placeNumber_of_lt {n : Nat} (h : n < 2048) (s : State) :
    placeNumber n s = placeWord (BitVec.ofNat 11 n) s := by
  simp [placeNumber, inputWordOfNat_of_lt h]

/-- What is no input word is not placed, and never cut down to one (log 6). -/
theorem placeNumber_of_ge {n : Nat} (h : 2048 ≤ n) (s : State) : placeNumber n s = s := by
  simp [placeNumber, inputWordOfNat_of_ge h]

end Sys2Proof.Machine
end

