-- ==== Sys2Proof/Laws/PerInstr.lean ====
section
/-! SUPPORT. The per-instruction family: each command is well formed and its canonical word is a word of its own row, with
every ignored bit 0 (30_encoding.md R53, R55). -/

namespace Sys2Proof.Laws.EncodingRow

/-- The command as syntax and as a word. -/
def Statement (i : Instr) : Prop :=
  i.wellFormed = true ∧ encode i &&& rowMask i = rowMatch i ∧ encode i &&& ~~~ usedBits i = 0#11

theorem reset : Statement .reset := ⟨rfl, by decide, by decide⟩

theorem idle : Statement .idle := ⟨rfl, by decide, by decide⟩

theorem update (b : Byte) : Statement (.update b) :=
  ⟨rfl, by revert b; decide +kernel, by revert b; decide +kernel⟩

theorem init : Statement .init := ⟨rfl, by decide, by decide⟩

theorem start (b : Byte) : Statement (.start b) :=
  ⟨rfl, by revert b; decide +kernel, by revert b; decide +kernel⟩

end Sys2Proof.Laws.EncodingRow
end

