-- ==== Sys2Proof/Laws/Run.lean ====
section
/-! SUPPORT. Cycles in a row: one lemma per case, and the agreement with the host's own run. -/

namespace Sys2Proof.Machine

@[simp] theorem runSteps_zero (s : State) : runSteps 0 s = .next s := rfl

theorem runSteps_succ_of_next {s t : State} (k : Nat) (h : step s = .next t) : runSteps (k + 1) s = runSteps k t := by
  rw [runSteps, h]

theorem runSteps_add_of_next {s t : State} (j k : Nat) (h : runSteps j s = .next t) :
    runSteps (j + k) s = runSteps k t := by
  induction j generalizing s with
  | zero =>
    cases h
    rw [Nat.zero_add]
  | succ j ih =>
    cases hs : step s with
    | next u =>
      rw [runSteps, hs] at h
      rw [show j + 1 + k = (j + k) + 1 by omega, runSteps_succ_of_next _ hs]
      exact ih h
    | fault r => cases r
    | refused r =>
      rw [runSteps, hs] at h
      cases h

theorem hostRun_succ_of_next (M : Host.Core) (k : Nat) (s t : M.State) (h : M.step s = .next t) :
    M.run (k + 1) s = M.run k t := by
  rw [Host.Core.run, h]

/-- The host's run of `Sys2Proof.core` answers what `runSteps` answers. -/
theorem core_run_of_runSteps {s t : State} (k : Nat) (h : runSteps k s = .next t) :
    Sys2Proof.core.run k s = .next t := by
  induction k generalizing s with
  | zero => exact h
  | succ k ih =>
    cases hs : step s with
    | next u =>
      rw [runSteps_succ_of_next _ hs] at h
      exact (hostRun_succ_of_next Sys2Proof.core k s u hs).trans (ih h)
    | fault r => cases r
    | refused r =>
      rw [runSteps, hs] at h
      cases h

end Sys2Proof.Machine
end

