-- ==== Sys2Proof/Tests/Slice0.lean ====
section
/-! SUPPORT. Tests on the spec's own vectors (95_test_vectors.md), the smoke test of the well-formedness checks, and a
witness for every statement that has hypotheses. -/

namespace Sys2Proof.Tests

open Sys2Proof Sys2Proof.Machine

/-- A small state: the accumulator and the words to come. -/
def st (a : Byte) (ws : List InputWord) : State := { acc := a, pending := ws, drawn := 0 }

/-- The accumulator after a step, if it goes on. -/
def accAfter (o : Host.Outcome State Fault Refusal) : Option Byte :=
  match o with
  | .next t => some t.acc
  | .fault _ => none
  | .refused _ => none

/-- The words the host still has after a step. -/
def pendingAfter (o : Host.Outcome State Fault Refusal) : Option (List InputWord) :=
  match o with
  | .next t => some t.pending
  | .fault _ => none
  | .refused _ => none

/-! ### Well-formedness: each check refuses an ill-formed term (60_exceptions.md R90, 95_test_vectors.md section 7) -/

theorem test_range_refuses_256 : inByteRange 256 = false := by decide
theorem test_range_refuses_minus_one : inByteRange (-1) = false := by decide
theorem test_range_accepts_both_ends : inByteRange 0 = true ∧ inByteRange 255 = true := by decide
theorem test_wf_refuses_update_256 : (SourceLine.update 256).wellFormed = false := by decide
theorem test_wf_refuses_start_minus_one : (SourceLine.start (-1)).wellFormed = false := by decide
theorem test_wf_refuses_msg_300 : (SourceLine.msg [1, 2, 300]).wellFormed = false := by decide
theorem test_ascii_refuses_code_128 : isAscii (Char.ofNat 128) = false := by decide
theorem test_wf_refuses_text : (SourceLine.computeText ['A', Char.ofNat 233]).wellFormed = false := by decide
theorem test_no_port_for_bit_11 : inputWordOfNat 2048 = .error (.noSuchPortBit 2048) := by rfl

/-! ### Decoding: the words of 30_encoding.md R53 written out bit by bit, `rst clr vld din` -/

theorem test_decode_reset : decode 0b1_0_0_00000000#11 = .reset := by decide
theorem test_decode_reset_ignores : decode 0b1_0_1_11111111#11 = .reset := by decide
theorem test_decode_idle : decode 0b0_0_0_11111111#11 = .idle := by decide
theorem test_decode_update : decode 0b0_0_1_01000001#11 = .update 0x41#8 := by decide
theorem test_decode_init : decode 0b0_1_0_01010101#11 = .init := by decide
theorem test_decode_start : decode 0b0_1_1_01000001#11 = .start 0x41#8 := by decide
theorem test_decode_table_word : decodeTableWord 16 0x341 = some (.start 0x41#8) := by decide
theorem test_encode_words : [Instr.reset, .idle, .init, .update 0x41#8, .start 0xFF#8].map encode
    = [0x400#11, 0x000#11, 0x200#11, 0x141#11, 0x3FF#11] := by decide

/-! ### One step: 95_test_vectors.md section 5 -/

theorem test_reset_drops_the_byte : accAfter (step (st 0xC4#8 [0x5FF#11])) = some 0x00#8 := by decide +kernel
theorem test_idle_ignores_din : accAfter (step (st 0x37#8 [0x0AB#11])) = some 0x37#8 := by decide +kernel
theorem test_init_ignores_din : accAfter (step (st 0xC7#8 [0x2FF#11])) = some 0x00#8 := by decide +kernel
theorem test_update_example : accAfter (step (st 0x0E#8 [0x142#11])) = some 0x8F#8 := by decide +kernel
theorem test_update_equal_gives_zero : accAfter (step (st 0xC4#8 [0x1C4#11])) = some 0x00#8 := by decide +kernel
theorem test_start_example : accAfter (step (st 0x99#8 [0x341#11])) = some 0x0E#8 := by decide +kernel
theorem test_start_all_ones : accAfter (step (st 0x99#8 [0x3FF#11])) = some 0xC4#8 := by decide +kernel
theorem test_step_takes_one_word :
    pendingAfter (step (st 0x37#8 [0x000#11, 0x1FF#11])) = some [0x1FF#11] := by decide +kernel
theorem test_placed_word_runs_first :
    accAfter (step (State.reset.withFetchWord 16 0x101)) = some 0x1D#8 := by decide +kernel

/-! ### The datapath: 95_test_vectors.md section 2 (rows that catch a wrong order of test and shift) and section 4 -/

theorem test_bit_step_tests_before_shift : bitStep 0x40#8 = 0x80#8 ∧ bitStep 0x80#8 = 0x1D#8 := by decide
theorem test_bit_step_all_ones : bitStep 0xFF#8 = 0xE3#8 := by decide
theorem test_byte_step_zero_byte : byteStep 0xC4#8 0x00#8 = 0x41#8 := by decide +kernel
theorem test_compute_order : compute [0x01#8, 0x02#8] = 0x76#8 ∧ compute [0x02#8, 0x01#8] = 0x85#8 := by decide +kernel
theorem test_compute_nine_digits :
    compute [0x31#8, 0x32#8, 0x33#8, 0x34#8, 0x35#8, 0x36#8, 0x37#8, 0x38#8, 0x39#8] = 0x37#8 := by decide +kernel

/-! ### The boundary and the assembler: 95_test_vectors.md section 7, 30_encoding.md R57 -/

theorem test_checked_reports_first : firstInvalid 0 [1, 256, -1] = some { index := 1, value := 256 } := by decide
theorem test_checked_does_not_mask : computeChecked [511] = .error { index := 0, value := 511 } := by rfl
theorem test_operand_spellings :
    assembleText ['U', 'P', 'D', 'A', 'T', 'E', ' ', '6', '5', '\n', 'S', 'T', 'A', 'R', 'T', ' ', '0', 'x', '4', '1', ';']
      = .ok [0x141#11, 0x341#11] := by decide +kernel
theorem test_operand_256_is_rejected :
    assembleText ['U', 'P', 'D', 'A', 'T', 'E', ' ', '2', '5', '6']
      = .error (.invalidByte { index := 0, value := 256 }) := by decide +kernel

/-- The model's choice of log 12, which the spec does not state. -/
theorem test_minus_sign : readOperand ['-', '1'] = some (-1, []) ∧ readOperand ['-', '0'] = some (0, []) := by
  decide +kernel

/-! ### Witnesses: a concrete state and operands for the hypotheses of each statement -/

theorem witness_decode_of_encode : (Instr.update 0xFF#8).wellFormed = true ∧ Instr.reset.wellFormed = true := by decide

theorem witness_rows : (0x0FF#11 &&& rowMask .idle = rowMatch .idle) ∧ (0x1FF#11 &&& rowMask (.update 0#8) = rowMatch (.update 0#8))
    ∧ (0x2FF#11 &&& rowMask .init = rowMatch .init) ∧ (0x3FF#11 &&& rowMask (.start 0#8) = rowMatch (.start 0#8))
    ∧ (0x7FF#11 &&& rowMask .reset = rowMatch .reset) := by decide

theorem witness_rst_overrides :
    (st 0xC4#8 [0x5FF#11]).pending = portsWord true false true 0xFF#8 :: []
      ∧ (st 0x99#8 [0x341#11]).pending = portsWord false true true 0x41#8 :: [] := by decide

theorem witness_ignored_bits :
    ((0x400#11).getLsbD 10 = true ∧ (0x7FF#11).getLsbD 10 = true)
      ∧ ((0x000#11).extractLsb' 8 3 = (0x0FF#11).extractLsb' 8 3 ∧ (0x000#11).getLsbD 8 = false)
      ∧ ((0x200#11).extractLsb' 8 3 = (0x2FF#11).extractLsb' 8 3 ∧ (0x200#11).getLsbD 8 = false) := by decide

theorem witness_step_with_and_without_listed_word :
    (st 0x37#8 [0x000#11, 0x1FF#11]).pending = 0x000#11 :: [0x1FF#11] ∧ (st 0x37#8 []).pending = [] := by decide

theorem witness_placed_word : 0 < 2048 ∧ 2047 < 2048 := by decide

theorem witness_next_cases :
    (0x400#11).getLsbD 10 = true
      ∧ ((0x0FF#11).getLsbD 10 = false ∧ (0x0FF#11).getLsbD 9 = false ∧ (0x0FF#11).getLsbD 8 = false)
      ∧ ((0x2FF#11).getLsbD 10 = false ∧ (0x2FF#11).getLsbD 9 = true ∧ (0x2FF#11).getLsbD 8 = false)
      ∧ ((0x1FF#11).getLsbD 10 = false ∧ (0x1FF#11).getLsbD 9 = false ∧ (0x1FF#11).getLsbD 8 = true)
      ∧ ((0x3FF#11).getLsbD 10 = false ∧ (0x3FF#11).getLsbD 9 = true ∧ (0x3FF#11).getLsbD 8 = true) := by decide

theorem witness_run : (st 0x00#8 [0x1FF#11, 0x000#11, 0x101#11]).pending = [0x1FF#11, 0x000#11] ++ [0x101#11] := by decide

theorem witness_dependency :
    (st 0x37#8 [0x101#11, 0x000#11]).acc = (st 0x37#8 [0x101#11]).acc
      ∧ presented (st 0x37#8 [0x101#11, 0x000#11]) = presented (st 0x37#8 [0x101#11])
      ∧ st 0x37#8 [0x101#11, 0x000#11] ≠ st 0x37#8 [0x101#11] := by decide

theorem witness_reset_word : (0x534#11).getLsbD 10 = true ∧ (st 0x12#8 [0x534#11]).pending = 0x534#11 :: [] := by decide

theorem witness_reset_held :
    [0x400#11, 0x7FF#11] ≠ ([] : List InputWord) ∧ (∀ w ∈ [0x400#11, 0x7FF#11], BitVec.getLsbD w 10 = true)
      ∧ (st 0x12#8 [0x400#11, 0x7FF#11, 0x000#11]).pending = [0x400#11, 0x7FF#11] ++ [0x000#11] := by decide

theorem witness_idle_word :
    (0x0AB#11).getLsbD 10 = false ∧ (0x0AB#11).getLsbD 9 = false ∧ (0x0AB#11).getLsbD 8 = false
      ∧ (st 0x37#8 [0x0AB#11]).pending = 0x0AB#11 :: [] := by decide

theorem witness_idle_words : ∀ w ∈ [0x0EE#11, 0x042#11], decode w = .idle := by decide

theorem witness_init_word :
    (0x2FF#11).getLsbD 10 = false ∧ (0x2FF#11).getLsbD 9 = true ∧ (0x2FF#11).getLsbD 8 = false
      ∧ (st 0xC7#8 [0x2FF#11]).pending = 0x2FF#11 :: [] := by decide

theorem witness_init_answers : exec .init (st 0xC7#8 []) = .next (st 0x00#8 []) := by rfl

theorem witness_update_word :
    (0x142#11).getLsbD 10 = false ∧ (0x142#11).getLsbD 9 = false ∧ (0x142#11).getLsbD 8 = true
      ∧ (st 0x0E#8 [0x142#11]).pending = 0x142#11 :: [] := by decide

theorem witness_update_zero_byte_on_nonzero : (0x01#8 : Byte) ≠ 0x00#8 := by decide

theorem witness_update_answers :
    exec (.update 0x42#8) (st 0x0E#8 []) = .next (st (byteStep 0x0E#8 0x42#8) []) := by rfl

theorem witness_start_word :
    (0x341#11).getLsbD 10 = false ∧ (0x341#11).getLsbD 9 = true ∧ (0x341#11).getLsbD 8 = true
      ∧ (st 0x99#8 [0x341#11]).pending = 0x341#11 :: [] := by decide

theorem witness_start_answers :
    exec (.start 0x41#8) (st 0x99#8 []) = .next (st (byteStep 0x00#8 0x41#8) []) := by rfl

theorem witness_opening_commands :
    opensMessage .reset = true ∧ opensMessage .init = true ∧ opensMessage (.start 0x00#8) = true
      ∧ exec .reset (st 0xC4#8 []) = .next (st 0x00#8 []) := ⟨rfl, rfl, rfl, rfl⟩

theorem witness_xor : (0x0F#8 : Byte) = 0xF0#8 ^^^ 0xFF#8 := by decide

theorem witness_order_range : 0 < 1 ∧ 1 < 255 ∧ 0 < 254 ∧ 254 < 255 := by decide

theorem witness_prefix :
    1 ≤ 2 ∧ 2 ≤ [0x41#8, 0x42#8, 0x43#8].length
      ∧ (st 0x11#8 [0x341#11, 0x142#11, 0x143#11]).pending = messageWords [0x41#8, 0x42#8, 0x43#8] ++ [] := by decide

theorem witness_pieces_with_pauses :
    carriedMessage [0x200#11, 0x141#11, 0x0EE#11, 0x142#11] = some [0x41#8, 0x42#8]
      ∧ 1 ≤ 1 ∧ 1 ≤ [0x41#8, 0x42#8].length
      ∧ carriedMessage [0x200#11, 0x141#11] = some [0x41#8] ∧ absorbedBytes [0x0EE#11, 0x142#11] = some [0x42#8]
      ∧ (st 0x99#8 [0x200#11, 0x141#11, 0x0EE#11, 0x142#11, 0x000#11]).pending
          = [0x200#11, 0x141#11] ++ [0x0EE#11, 0x142#11] ++ [0x000#11] := by decide

theorem witness_second_message_unopened :
    (st 0x00#8 [0x3FF#11, 0x101#11]).pending = messageWords [0xFF#8] ++ wordsOf ([0x01#8].map .update) ++ [] := by decide

theorem witness_carried_message :
    carriedMessage [0x341#11, 0x0EE#11, 0x142#11] = some [0x41#8, 0x42#8]
      ∧ carriedMessage [0x5FF#11, 0x1FF#11] = some [0xFF#8] ∧ carriedMessage [0x200#11] = some []
      ∧ (st 0x11#8 [0x1FF#11, 0x341#11, 0x0EE#11, 0x142#11, 0x000#11]).pending
          = [0x1FF#11] ++ [0x341#11, 0x0EE#11, 0x142#11] ++ [0x000#11] := by decide

theorem witness_result_stays :
    carriedMessage [0x341#11] = some [0x41#8] ∧ (∀ w ∈ [0x000#11, 0x0FF#11], decode w = .idle)
      ∧ 2 ≤ [(0x000#11 : InputWord), 0x0FF#11].length
      ∧ (st 0x11#8 [0x341#11, 0x000#11, 0x0FF#11, 0x200#11]).pending
          = [0x341#11] ++ [0x000#11, 0x0FF#11] ++ [0x200#11] := by decide

theorem witness_two_runs_of_one_message :
    carriedMessage [0x301#11, 0x102#11] = some [0x01#8, 0x02#8]
      ∧ (st 0x5A#8 [0x1FF#11, 0x301#11, 0x102#11]).pending = [0x1FF#11] ++ [0x301#11, 0x102#11] ++ []
      ∧ (st 0x76#8 [0x301#11, 0x102#11, 0x000#11]).pending = [] ++ [0x301#11, 0x102#11] ++ [0x000#11]
      ∧ (0x5A#8 : Byte) ≠ 0x76#8 := by decide

theorem witness_start_reaches_a_value :
    exec (.start 0x00#8) (st 0x99#8 []) = .next { st 0x99#8 [] with acc := byteStep 0x00#8 0x00#8 } := by rfl

theorem witness_held_valid :
    (st 0x00#8 [0x101#11, 0x101#11, 0x000#11]).pending
      = List.replicate 2 (portsWord false false true 0x01#8) ++ [0x000#11] := by decide

theorem witness_nonempty_message : [0x00#8] ≠ ([] : List Byte) := by decide

theorem witness_cycles :
    [0x41#8, 0x42#8] ≠ ([] : List Byte)
      ∧ (st 0x99#8 [0x341#11, 0x142#11, 0x000#11]).pending = messageWords [0x41#8, 0x42#8] ++ [0x000#11]
      ∧ (st 0x99#8 [0x200#11, 0x000#11]).pending = messageWords [] ++ [0x000#11]
      ∧ (st 0x99#8 [0x200#11, 0x141#11]).pending = wordsOf (messageAfter .init [0x41#8]) ++ []
      ∧ (st 0x99#8 [0x400#11]).pending = wordsOf (messageAfter .reset []) ++ [] := by decide

theorem witness_message_on_course :
    carriedMessage [0x341#11, 0x142#11] = some [0x41#8, 0x42#8] ∧ (∀ w ∈ [0x0EE#11], decode w = .idle)
      ∧ (st 0x99#8 [0x341#11, 0x142#11, 0x0EE#11]).pending = [0x341#11, 0x142#11] ++ [0x0EE#11] := by decide

theorem witness_on_course_listed :
    OnCourse 0x1D#8 0 (st 0x00#8 [0x101#11]) ∧ step (st 0x00#8 [0x101#11]) = .next (st 0x1D#8 []) :=
  ⟨⟨Nat.le_refl 0, fun _ => by decide +kernel⟩, by rfl⟩

theorem witness_on_course_free_word :
    OnCourse 0x37#8 0 (st 0x37#8 []) ∧ ∃ t, step (st 0x37#8 []) = .next t := by
  refine ⟨⟨Nat.le_refl 0, fun _ => rfl⟩, ?_⟩
  show ∃ t, exec (decode (presented (st 0x37#8 []))) (advanceHost (st 0x37#8 [])) = .next t
  cases decode (presented (st 0x37#8 [])) <;> exact ⟨_, rfl⟩

theorem witness_checked_element_before :
    0 < 1 ∧ [(1 : Int), 256, -1][0]? = some 1 ∧ computeChecked [1, 256, -1] = .error { index := 1, value := 256 } := by
  exact ⟨by decide, by decide, by rfl⟩

theorem witness_checked_is_a_checksum : computeChecked [0, 255] = .ok (compute [0x00#8, 0xFF#8]) := by rfl

theorem witness_issued_before_error : issueAsRead [1, 2, 300] = [0x301#11, 0x102#11] ∧ issueAsRead [] = [0x200#11] := by decide

theorem witness_error_before_and_issued_word :
    (300 : Int) ∈ [(1 : Int), 2, 300] ∧ (255 : Int) < 300 ∧ 0x102#11 ∈ issueAsRead [1, 2, 300]
      ∧ 0x200#11 ∈ issueAsRead [] := by decide

theorem witness_first_element_invalid :
    (255 : Int) < 300 ∧ issueAsRead [300, 1] = [0x200#11] ∧ (wrapperCall issueAsRead 0x37#8 [300, 1]).1 = 0x00#8
      ∧ carriedMessage [0x400#11, 0x101#11, 0x000#11, 0x102#11] = some (validPrefix [1, 2, 300])
      ∧ (300 : Int) ∈ [(1 : Int), 300] ∧ (wrapperCall issueAfterCheck 0x37#8 [1, 300]).1 = 0x37#8 := by decide

theorem witness_msg_rejected :
    [(1 : Int), 256, -1][1]? = some 256 ∧ [(1 : Int), 256, -1][0]? = some 1
      ∧ assemble [.msg [1, 256, -1]] = .error (.invalidByte { index := 1, value := 256 }) := ⟨rfl, rfl, rfl⟩

theorem witness_out_of_range : ((-1 : Int) < 0 ∨ (255 : Int) < -1) ∧ ((256 : Int) < 0 ∨ (255 : Int) < 256) := by decide

theorem witness_ascii_text : asciiCodes ['A', 'B', 'C'] = .ok [0x41#8, 0x42#8, 0x43#8] := by rfl

end Sys2Proof.Tests
end

/-! SUPPORT. What each command answers, one equation a command: the whole next state, so that the frame (nothing but `acc`
changes) is read off the right side (41_commands.md R71 to R76). -/

namespace Sys2Proof.Machine

@[simp] theorem exec_reset (s : State) : exec .reset s = .next { s with acc := 0x00#8 } := rfl

@[simp] theorem exec_idle (s : State) : exec .idle s = .next s := rfl

@[simp] theorem exec_update (b : Byte) (s : State) :
    exec (.update b) s = .next { s with acc := byteStep s.acc b } := rfl

@[simp] theorem exec_init (s : State) : exec .init s = .next { s with acc := 0x00#8 } := rfl

@[simp] theorem exec_start (b : Byte) (s : State) :
    exec (.start b) s = .next { s with acc := byteStep 0x00#8 b } := rfl

/-- An opening command does not read `ACC`: its answer does not depend on it (10_state.md R21). -/
theorem exec_with_acc_of_opensMessage {i : Instr} (hi : opensMessage i = true) (s : State) (a : Byte) :
    exec i { s with acc := a } = exec i s := by
  cases i with
  | reset => simp
  | idle => cases hi
  | update b => cases hi
  | init => simp
  | start b => simp

end Sys2Proof.Machine

/-! SUPPORT. The datapath is a bijection (40_datapath.md R67). A sub-step is linear, so it is injective because only 0x00 goes
to 0x00: the bit it shifts out comes back in bit 0, where POLY is 1. -/

namespace Sys2Proof.Machine

/-- Bit 0 of a sub-step is the bit tested: the shift leaves bit 0 empty and POLY is odd. -/
theorem bitStep_getLsbD_zero (c : Byte) : (bitStep c).getLsbD 0 = highBit c := by
  cases h : highBit c <;> simp [bitStep, shl1, Config.poly, h]

theorem eq_zero_of_bitStep_eq_zero {c : Byte} (h : bitStep c = 0x00#8) : c = 0x00#8 := by
  have hhigh : highBit c = false := by
    rw [← bitStep_getLsbD_zero, h]
    rfl
  have hshift : c <<< 1 = 0x00#8 := by
    simpa [bitStep, shl1, hhigh] using h
  have hlt : 2 * c.toNat < 2 ^ 8 := by
    rwa [highBit_eq, ← BitVec.msb_eq_getLsbD_last c, BitVec.msb_eq_false_iff_two_mul_lt] at hhigh
  bv_omega

theorem bitStep_injective : Function.Injective bitStep := by
  intro x y h
  have hxor : bitStep (x ^^^ y) = 0x00#8 := by
    rw [bitStep_xor, h, BitVec.xor_self]
  exact BitVec.xor_eq_zero_iff.1 (eq_zero_of_bitStep_eq_zero hxor)

theorem bitSteps_eq_iterate (n : Nat) : bitSteps n = bitStep^[n] := by
  induction n with
  | zero => rfl
  | succ n ih =>
    funext c
    rw [bitSteps, ih, Function.iterate_succ_apply]

theorem tStep_injective : Function.Injective tStep := by
  show Function.Injective (bitSteps Config.subSteps)
  rw [bitSteps_eq_iterate]
  exact bitStep_injective.iterate Config.subSteps

/-- For a fixed byte, every accumulator comes from exactly one (40_datapath.md R67). -/
theorem byteStep_bijective_of_byte (b : Byte) : Function.Bijective fun a => byteStep a b := by
  refine Finite.injective_iff_bijective.1 fun a a' h => ?_
  have hxor : a ^^^ b = a' ^^^ b := tStep_injective h
  exact (BitVec.xor_left_inj b).1 hxor

/-- UPDATE can be made to give any value by the accumulator it finds (10_state.md R21, 40_datapath.md R67). -/
theorem exists_acc_exec_update (b v : Byte) :
    ∃ a, ∀ s : State, exec (.update b) { s with acc := a } = .next { s with acc := v } := by
  obtain ⟨a, ha⟩ : ∃ a, byteStep a b = v := (byteStep_bijective_of_byte b).surjective v
  exact ⟨a, fun s => by rw [exec_update, ha]⟩

/-- Settles O36: the opening commands by the case split over the commands, IDLE and UPDATE by their equations, and the last
clause by the bijection of the datapath. -/
theorem powerUpValueIsEndedByWritingCommands : Obligations.PowerUpValueIsEndedByWritingCommands :=
  ⟨powerUp_acc, fun _ s a hi => exec_with_acc_of_opensMessage hi s a, exec_idle State.powerUp,
    fun b => exec_update b State.powerUp, exists_acc_exec_update⟩

end Sys2Proof.Machine

/-! SUPPORT. What one cycle answers, as an equation on the whole state: every command goes on with a state that differs in
`acc` alone (41_commands.md R76), and a step is `next` on the accumulator and the word on the ports (20_memory.md R40,
41_commands.md R70). -/

namespace Sys2Proof.Machine

/-- Every command answers a next state, and only `acc` may differ in it (41_commands.md R76). -/
theorem exists_exec_eq (i : Instr) (s : State) : ∃ a, exec i s = .next { s with acc := a } := by
  cases i with
  | reset => exact ⟨_, exec_reset s⟩
  | idle => exact ⟨s.acc, exec_idle s⟩
  | update b => exact ⟨_, exec_update b s⟩
  | init => exact ⟨_, exec_init s⟩
  | start b => exact ⟨_, exec_start b s⟩

/-- The command a word decodes to acts on the accumulator as `next` does (41_commands.md R70). -/
theorem exec_decode (w : InputWord) (s : State) :
    exec (decode w) s = .next { s with acc := nextAcc s.acc w } := by
  obtain ⟨hr, hd⟩ | ⟨hr, hc, hv, hd⟩ | ⟨hr, hc, hv, hd⟩ | ⟨hr, hc, hv, hd⟩ | ⟨hr, hc, hv, hd⟩ := decode_cases w
  · simp [hd, nextAcc, hr]
  · simp [hd, nextAcc, hr, hc, hv]
  · simp [hd, nextAcc, hr, hc, hv]
  · simp [hd, nextAcc, hr, hc, hv]
  · simp [hd, nextAcc, hr, hc, hv]

/-- One cycle: the core's part is `next` of `ACC` and the word on the ports, the rest is the host moving on. -/
theorem step_eq_nextAcc (s : State) :
    step s = .next { advanceHost s with acc := nextAcc s.acc (presented s) } := by
  rw [step, exec_decode, advanceHost_acc]

/-- Settles O12: the accumulator after a step is a function of `ACC` and the word on the ports, and `crc` shows it. -/
theorem nextOutputDependsOnAccAndWordOnly : Obligations.NextOutputDependsOnAccAndWordOnly := by
  intro s s' hacc hword
  refine ⟨_, _, step_eq_nextAcc s, step_eq_nextAcc s', ?_⟩
  rw [crc_eq, crc_eq, hacc, hword]

end Sys2Proof.Machine

/-! SUPPORT. Which actions may be given twice (20_memory.md R37). An opening command does not read `ACC`, so a second one
finds nothing new; UPDATE reads it, and the bijections of the datapath give a byte whose second absorption shows. -/

namespace Sys2Proof.Machine

/-- An opening command given twice is the same as once. -/
theorem exec_twice_of_opensMessage {i : Instr} {s t : State} (hi : opensMessage i = true) (h : exec i s = .next t) :
    exec i t = .next t := by
  obtain ⟨a, ha⟩ := exists_exec_eq i s
  obtain rfl : { s with acc := a } = t := by simpa using ha.symm.trans h
  rw [exec_with_acc_of_opensMessage hi, h]

/-- From a fixed accumulator, every value is reached by exactly one byte (40_datapath.md R67). -/
theorem byteStep_bijective_of_acc (a : Byte) : Function.Bijective (byteStep a) := by
  refine Finite.injective_iff_bijective.1 fun b b' h => ?_
  have hxor : a ^^^ b = a ^^^ b' := tStep_injective h
  exact (BitVec.xor_right_inj a).1 hxor

/-- Absorbing a byte twice is absorbing it once only where the byte leaves the accumulator as it was. -/
theorem fold_twice_eq_fold_once_iff (a b : Byte) : fold a [b, b] = fold a [b] ↔ byteStep a b = a :=
  (byteStep_bijective_of_byte b).injective.eq_iff

/-- For every accumulator there is a byte that, absorbed twice, does not give what it gives absorbed once: any byte that
moves the accumulator. -/
theorem exists_fold_twice_ne_fold_once (a : Byte) : ∃ b, fold a [b, b] ≠ fold a [b] := by
  obtain ⟨v, hv⟩ : ∃ v, v ≠ a := ⟨a + 1, by simp⟩
  obtain ⟨b, hb⟩ : ∃ b, byteStep a b = v := (byteStep_bijective_of_acc a).surjective v
  refine ⟨b, fun h => hv ?_⟩
  rw [← hb]
  exact (fold_twice_eq_fold_once_iff a b).1 h

/-- UPDATE given twice with one byte absorbs that byte twice (20_memory.md R37). -/
theorem exec_update_twice {s t : State} {b : Byte} (h : exec (.update b) s = .next t) :
    exec (.update b) t = .next { s with acc := fold s.acc [b, b] } := by
  obtain rfl : { s with acc := byteStep s.acc b } = t := by simpa using h
  exact exec_update b _

/-- Settles O19: the opening commands because none reads `ACC`, UPDATE by a byte that moves the accumulator. -/
theorem idempotencyOfEachAction : Obligations.IdempotencyOfEachAction :=
  ⟨exec_idle, fun _ _ _ => exec_twice_of_opensMessage, fun s => ⟨exec_reset s, exec_init s⟩,
    fun s b => exec_start b s, fun _ _ _ => exec_update_twice, exists_fold_twice_ne_fold_once⟩

end Sys2Proof.Machine

/-! SUPPORT. The input word as its four ports (30_encoding.md R50): `portsWord` is injective, `&&&` acts port by port, and every
word is the word of its own fields. The facts about masks, rows and canonical words below are facts about ports. -/

namespace Sys2Proof

theorem getLsbD_portsWord (rst clr vld : Bool) (din : Byte) (k : Nat) :
    (portsWord rst clr vld din).getLsbD k =
      if k < 10 then
        if k < 9 then if k < 8 then din.getLsbD k else (BitVec.ofBool vld).getLsbD (k - 8)
        else (BitVec.ofBool clr).getLsbD (k - 9)
      else (BitVec.ofBool rst).getLsbD (k - 10) :=
  BitVec.getLsbD_append.trans (if_congr Iff.rfl
    (BitVec.getLsbD_append.trans (if_congr Iff.rfl BitVec.getLsbD_append rfl)) rfl)

@[simp] theorem rstBit_portsWord (rst clr vld : Bool) (din : Byte) : rstBit (portsWord rst clr vld din) = rst := by
  rw [rstBit, getLsbD_portsWord]
  simp

@[simp] theorem clrBit_portsWord (rst clr vld : Bool) (din : Byte) : clrBit (portsWord rst clr vld din) = clr := by
  rw [clrBit, getLsbD_portsWord]
  simp

@[simp] theorem vldBit_portsWord (rst clr vld : Bool) (din : Byte) : vldBit (portsWord rst clr vld din) = vld := by
  rw [vldBit, getLsbD_portsWord]
  simp

theorem getLsbD_portsWord_of_lt (rst clr vld : Bool) (din : Byte) {k : Nat} (hk : k < 8) :
    (portsWord rst clr vld din).getLsbD k = din.getLsbD k := by
  rw [getLsbD_portsWord, if_pos (by omega), if_pos (by omega), if_pos hk]

@[simp] theorem dinField_portsWord (rst clr vld : Bool) (din : Byte) : dinField (portsWord rst clr vld din) = din := by
  refine BitVec.eq_of_getLsbD_eq fun k hk => ?_
  rw [dinField, BitVec.getLsbD_extractLsb', Nat.zero_add, getLsbD_portsWord_of_lt _ _ _ _ hk]
  simp [hk]

/-- Bits 7 to 0 are `din`, and the three bits above it are `vld`, `clr` and `rst`. -/
@[simp] theorem portsWord_fields (w : InputWord) : portsWord (rstBit w) (clrBit w) (vldBit w) (dinField w) = w := by
  refine BitVec.eq_of_getLsbD_eq fun k hk => ?_
  by_cases hlow : k < 8
  · rw [getLsbD_portsWord_of_lt _ _ _ _ hlow, dinField, BitVec.getLsbD_extractLsb']
    simp [hlow]
  · obtain rfl | rfl | rfl : k = 8 ∨ k = 9 ∨ k = 10 := by omega
    · exact vldBit_portsWord _ _ _ _
    · exact clrBit_portsWord _ _ _ _
    · exact rstBit_portsWord _ _ _ _

theorem portsWord_inj {rst clr vld rst' clr' vld' : Bool} {din din' : Byte} :
    portsWord rst clr vld din = portsWord rst' clr' vld' din'
      ↔ rst = rst' ∧ clr = clr' ∧ vld = vld' ∧ din = din' := by
  constructor
  · intro h
    exact ⟨by simpa using congrArg rstBit h, by simpa using congrArg clrBit h, by simpa using congrArg vldBit h,
      by simpa using congrArg dinField h⟩
  · rintro ⟨rfl, rfl, rfl, rfl⟩
    rfl

@[simp] theorem rstBit_and (w v : InputWord) : rstBit (w &&& v) = (rstBit w && rstBit v) := BitVec.getLsbD_and

@[simp] theorem clrBit_and (w v : InputWord) : clrBit (w &&& v) = (clrBit w && clrBit v) := BitVec.getLsbD_and

@[simp] theorem vldBit_and (w v : InputWord) : vldBit (w &&& v) = (vldBit w && vldBit v) := BitVec.getLsbD_and

@[simp] theorem dinField_and (w v : InputWord) : dinField (w &&& v) = dinField w &&& dinField v :=
  BitVec.extractLsb'_and

/-- Masking a word masks each port. -/
theorem and_portsWord (w : InputWord) (rst clr vld : Bool) (din : Byte) :
    w &&& portsWord rst clr vld din
      = portsWord (rstBit w && rst) (clrBit w && clr) (vldBit w && vld) (dinField w &&& din) := by
  rw [← portsWord_fields (w &&& portsWord rst clr vld din), portsWord_inj]
  simp

/-- The number a word is: `din` has the weights of a byte, `vld`, `clr` and `rst` weigh 256, 512 and 1024. -/
theorem toNat_portsWord (rst clr vld : Bool) (din : Byte) :
    (portsWord rst clr vld din).toNat = 1024 * rst.toNat + 512 * clr.toNat + 256 * vld.toNat + din.toNat := by
  have hor (b : Bool) (m n : Nat) (hn : n < 2 ^ m) : b.toNat <<< m ||| n = b.toNat * 2 ^ m + n := by
    rw [← Nat.shiftLeft_add_eq_or_of_lt hn, Nat.shiftLeft_eq]
  have hvld := hor vld 8 din.toNat din.isLt
  have hclr := hor clr 9 (vld.toNat * 2 ^ 8 + din.toNat) (by have := vld.toNat_le; omega)
  have hrst := hor rst 10 (clr.toNat * 2 ^ 9 + (vld.toNat * 2 ^ 8 + din.toNat))
    (by have := vld.toNat_le; have := clr.toNat_le; omega)
  simp only [portsWord, BitVec.toNat_append, BitVec.toNat_ofBool]
  rw [hvld, hclr, hrst]
  omega

/-- Settles O2: the bits of the word are read off its definition, and the fields of a word are its bits. -/
theorem portsAreTheBitsOfTheInputWord : Obligations.PortsAreTheBitsOfTheInputWord :=
  ⟨fun rst clr vld din =>
    ⟨rstBit_portsWord rst clr vld din, clrBit_portsWord rst clr vld din, vldBit_portsWord rst clr vld din,
      fun _ => getLsbD_portsWord_of_lt rst clr vld din, rstBit_portsWord rst clr vld din,
      clrBit_portsWord rst clr vld din, vldBit_portsWord rst clr vld din, dinField_portsWord rst clr vld din⟩,
    portsWord_fields⟩

/-! ### The canonical words -/

theorem encode_reset : encode .reset = portsWord true false false 0x00#8 := rfl

theorem encode_idle : encode .idle = portsWord false false false 0x00#8 := rfl

theorem encode_init : encode .init = portsWord false true false 0x00#8 := rfl

theorem encode_update (b : Byte) : encode (.update b) = portsWord false false true b := by
  refine BitVec.eq_of_toNat_eq ?_
  rw [toNat_portsWord]
  simp [encode]
  omega

theorem encode_start (b : Byte) : encode (.start b) = portsWord false true true b := by
  refine BitVec.eq_of_toNat_eq ?_
  rw [toNat_portsWord]
  simp [encode]
  omega

@[simp] theorem decode_portsWord_rst (clr vld : Bool) (din : Byte) : decode (portsWord true clr vld din) = .reset :=
  decode_of_rst (rstBit_portsWord ..)

@[simp] theorem decode_portsWord_idle (din : Byte) : decode (portsWord false false false din) = .idle :=
  decode_of_idle (rstBit_portsWord ..) (clrBit_portsWord ..) (vldBit_portsWord ..)

@[simp] theorem decode_portsWord_update (din : Byte) : decode (portsWord false false true din) = .update din := by
  rw [decode_of_update (rstBit_portsWord ..) (clrBit_portsWord ..) (vldBit_portsWord ..), dinField_portsWord]

@[simp] theorem decode_portsWord_init (din : Byte) : decode (portsWord false true false din) = .init :=
  decode_of_init (rstBit_portsWord ..) (clrBit_portsWord ..) (vldBit_portsWord ..)

@[simp] theorem decode_portsWord_start (din : Byte) : decode (portsWord false true true din) = .start din := by
  rw [decode_of_start (rstBit_portsWord ..) (clrBit_portsWord ..) (vldBit_portsWord ..), dinField_portsWord]

/-- The decoder undoes the encoder, with every operand at every value (30_encoding.md R53, R55). -/
@[simp] theorem decode_encode (i : Instr) : decode (encode i) = i := by
  cases i with
  | reset => rw [encode_reset, decode_portsWord_rst]
  | idle => rw [encode_idle, decode_portsWord_idle]
  | update b => rw [encode_update, decode_portsWord_update]
  | init => rw [encode_init, decode_portsWord_init]
  | start b => rw [encode_start, decode_portsWord_start]

/-- Settles O3: each command's canonical word has the ports of its row, and the decoder reads them back. -/
theorem decodeOfEncodeIsTheCommand : Obligations.DecodeOfEncodeIsTheCommand :=
  fun i _ => decode_encode i

/-- The canonical word of a word's command is the word with its ignored bits cleared (30_encoding.md R55, R59). -/
theorem encode_decode (w : InputWord) : encode (decode w) = w &&& usedBits (decode w) := by
  have hreset : usedBits .reset = portsWord true false false 0x00#8 := rfl
  have hplain : 0x700#11 = portsWord true true true 0x00#8 := rfl
  have hbyte : 0x7FF#11 = portsWord true true true 0xFF#8 := rfl
  have hdin : dinField w &&& 0xFF#8 = dinField w := BitVec.and_allOnes
  obtain ⟨hr, hd⟩ | ⟨hr, hc, hv, hd⟩ | ⟨hr, hc, hv, hd⟩ | ⟨hr, hc, hv, hd⟩ | ⟨hr, hc, hv, hd⟩ := decode_cases w
  · simp [hd, encode_reset, hreset, and_portsWord, hr]
  · simp [hd, encode_idle, usedBits, hplain, and_portsWord, hr, hc, hv]
  · simp [hd, encode_update, usedBits, hbyte, and_portsWord, hdin, hr, hc, hv]
  · simp [hd, encode_init, usedBits, hplain, and_portsWord, hr, hc, hv]
  · simp [hd, encode_start, usedBits, hbyte, and_portsWord, hdin, hr, hc, hv]

/-- No bit outside a mask is set exactly when the mask changes nothing. -/
theorem and_not_eq_zero_iff (w mask : InputWord) : w &&& ~~~ mask = 0#11 ↔ w &&& mask = w := by
  constructor
  · intro h
    calc w &&& mask = w &&& mask ||| w &&& ~~~ mask := by rw [h, BitVec.or_zero]
      _ = w := by ext k hk; cases hm : mask[k] <;> simp [hm]
  · intro h
    calc w &&& ~~~ mask = w &&& mask &&& ~~~ mask := by rw [h]
      _ = 0#11 := by rw [BitVec.and_assoc, BitVec.and_not_self, BitVec.ofNat_eq_ofNat, BitVec.and_zero]

theorem isCanonical_iff (w : InputWord) : isCanonical w = true ↔ encode (decode w) = w := by
  rw [encode_decode, ← and_not_eq_zero_iff, isCanonical, beq_iff_eq]

/-- Settles O4: a canonical word is one its command's mask of read bits leaves as it is. -/
theorem encodeOfDecodeUpToIgnoredBits : Obligations.EncodeOfDecodeUpToIgnoredBits :=
  fun w => ⟨encode_decode w, isCanonical_iff w⟩

/-- Settles O1: the decoder evaluated on each of the fourteen words. -/
theorem wordsOfTheSpecDecode : Obligations.WordsOfTheSpecDecode := by
  unfold Obligations.WordsOfTheSpecDecode
  decide

end Sys2Proof

/-! SUPPORT. The rows of the opcode map (30_encoding.md R53): which opcode bits the mask and match columns ask for, the command
of each row, and how many words each row takes. -/

namespace Sys2Proof

/-- RESET's row asks for `rst` and for nothing else. -/
theorem rstMask_iff {w : InputWord} : w &&& 0x400#11 = 0x400#11 ↔ rstBit w = true := by
  have hmask : 0x400#11 = portsWord true false false 0x00#8 := rfl
  rw [hmask, and_portsWord, portsWord_inj]
  simp

/-- The mask of the other four rows asks for `rst`, `clr` and `vld` and leaves `din` free. -/
theorem opcodeMask_iff {w : InputWord} (rst clr vld : Bool) :
    w &&& 0x700#11 = portsWord rst clr vld 0x00#8 ↔ rstBit w = rst ∧ clrBit w = clr ∧ vldBit w = vld := by
  have hmask : 0x700#11 = portsWord true true true 0x00#8 := rfl
  rw [hmask, and_portsWord, portsWord_inj]
  simp

theorem decode_of_resetRow {w : InputWord} (h : w &&& 0x400#11 = 0x400#11) : decode w = .reset :=
  decode_of_rst (rstMask_iff.1 h)

theorem decode_of_idleRow {w : InputWord} (h : w &&& 0x700#11 = 0x000#11) : decode w = .idle := by
  obtain ⟨hr, hc, hv⟩ := (opcodeMask_iff false false false).1 h
  exact decode_of_idle hr hc hv

theorem decode_of_updateRow {w : InputWord} (h : w &&& 0x700#11 = 0x100#11) : decode w = .update (dinField w) := by
  obtain ⟨hr, hc, hv⟩ := (opcodeMask_iff false false true).1 h
  exact decode_of_update hr hc hv

theorem decode_of_initRow {w : InputWord} (h : w &&& 0x700#11 = 0x200#11) : decode w = .init := by
  obtain ⟨hr, hc, hv⟩ := (opcodeMask_iff false true false).1 h
  exact decode_of_init hr hc hv

theorem decode_of_startRow {w : InputWord} (h : w &&& 0x700#11 = 0x300#11) : decode w = .start (dinField w) := by
  obtain ⟨hr, hc, hv⟩ := (opcodeMask_iff false true true).1 h
  exact decode_of_start hr hc hv

/-- Every word is a word of the row of its command: the rows cover all words. -/
theorem row_of_decode (w : InputWord) : w &&& rowMask (decode w) = rowMatch (decode w) := by
  obtain ⟨hr, hd⟩ | ⟨hr, hc, hv, hd⟩ | ⟨hr, hc, hv, hd⟩ | ⟨hr, hc, hv, hd⟩ | ⟨hr, hc, hv, hd⟩ := decode_cases w
  · rw [hd]
    exact rstMask_iff.2 hr
  · rw [hd]
    exact (opcodeMask_iff false false false).2 ⟨hr, hc, hv⟩
  · rw [hd]
    exact (opcodeMask_iff false false true).2 ⟨hr, hc, hv⟩
  · rw [hd]
    exact (opcodeMask_iff false true false).2 ⟨hr, hc, hv⟩
  · rw [hd]
    exact (opcodeMask_iff false true true).2 ⟨hr, hc, hv⟩

theorem row_of_decode_eq {w : InputWord} {i : Instr} (h : decode w = i) : w &&& rowMask i = rowMatch i :=
  h ▸ row_of_decode w

theorem decode_eq_update_iff {w : InputWord} {b : Byte} :
    decode w = .update b ↔ w &&& 0x700#11 = 0x100#11 ∧ b = dinField w := by
  constructor
  · intro h
    have hrow : w &&& 0x700#11 = 0x100#11 := row_of_decode_eq h
    exact ⟨hrow, Instr.update.inj (h.symm.trans (decode_of_updateRow hrow))⟩
  · rintro ⟨hrow, rfl⟩
    exact decode_of_updateRow hrow

theorem decode_eq_start_iff {w : InputWord} {b : Byte} :
    decode w = .start b ↔ w &&& 0x700#11 = 0x300#11 ∧ b = dinField w := by
  constructor
  · intro h
    have hrow : w &&& 0x700#11 = 0x300#11 := row_of_decode_eq h
    exact ⟨hrow, Instr.start.inj (h.symm.trans (decode_of_startRow hrow))⟩
  · rintro ⟨hrow, rfl⟩
    exact decode_of_startRow hrow

/-- The rows are disjoint: a row that matches a word is the row of the word's command. -/
theorem row_unique {w : InputWord} {i : Instr} (h : w &&& rowMask i = rowMatch i) :
    rowMask i = rowMask (decode w) ∧ rowMatch i = rowMatch (decode w) := by
  cases i with
  | reset => rw [decode_of_resetRow h]; exact ⟨rfl, rfl⟩
  | idle => rw [decode_of_idleRow h]; exact ⟨rfl, rfl⟩
  | update b => rw [decode_of_updateRow h]; exact ⟨rfl, rfl⟩
  | init => rw [decode_of_initRow h]; exact ⟨rfl, rfl⟩
  | start b => rw [decode_of_startRow h]; exact ⟨rfl, rfl⟩

/-! ### How many words each row takes: the row is the same throughout each block of 256 words -/

/-- The match column of the words numbered `256 * k` to `256 * k + 255`, read from the opcode bits `k` alone. -/
def blockRow (k : Nat) : InputWord :=
  if k.testBit 2 then 0x400#11 else portsWord false (k.testBit 1) (k.testBit 0) 0x00#8

theorem rowMatch_decode (w : InputWord) :
    rowMatch (decode w) = if rstBit w then 0x400#11 else portsWord false (clrBit w) (vldBit w) 0x00#8 := by
  obtain ⟨hr, hd⟩ | ⟨hr, hc, hv, hd⟩ | ⟨hr, hc, hv, hd⟩ | ⟨hr, hc, hv, hd⟩ | ⟨hr, hc, hv, hd⟩ := decode_cases w
  · rw [hd, hr]
    rfl
  all_goals
    rw [hd, hr, hc, hv]
    rfl

theorem rowMatch_decode_ofNat (n : Nat) : rowMatch (decode (BitVec.ofNat 11 n)) = blockRow (n / 256) := by
  have hbit (i : Nat) : (n / 256).testBit i = n.testBit (i + 8) := Nat.testBit_div_two_pow (n := 8) n i
  rw [rowMatch_decode, blockRow, hbit, hbit, hbit]
  simp only [rstBit, clrBit, vldBit, BitVec.getLsbD_ofNat]
  rfl

/-- A property of a number's block of `m` numbers holds `m` times as often as it holds of a block. -/
theorem countP_range_div (f : Nat → Bool) (m k : Nat) :
    (List.range (m * k)).countP (fun n => f (n / m)) = m * (List.range k).countP f := by
  induction k with
  | zero => rfl
  | succ k ih =>
    have hblock : (List.range m).countP ((fun n => f (n / m)) ∘ fun n => m * k + n)
        = (List.range m).countP fun _ => f k := by
      refine List.countP_congr fun n hn => ?_
      have hlt : n < m := List.mem_range.1 hn
      have hdiv : (m * k + n) / m = k := by
        rw [Nat.mul_add_div (by omega), Nat.div_eq_of_lt hlt, Nat.add_zero]
      simp [hdiv]
    rw [Nat.mul_succ, List.range_add, List.countP_append, ih, List.countP_map, hblock, List.range_succ,
      List.countP_append, Nat.mul_add]
    cases hf : f k <;> simp [hf]

/-- A row takes 256 words for each of the eight settings of the opcode bits that select it. -/
theorem rowCount_eq (m : InputWord) :
    ((List.range 2048).countP fun n => rowMatch (decode (BitVec.ofNat 11 n)) == m)
      = 256 * (List.range 8).countP fun k => blockRow k == m := by
  rw [← countP_range_div]
  simp only [rowMatch_decode_ofNat]

/-- Settles O5: a row's mask and match give the command, every word is in the row of its command, and the rows are counted by
the settings of the opcode bits. -/
theorem everyWordSelectsExactlyOneRow : Obligations.EveryWordSelectsExactlyOneRow := by
  refine ⟨fun w => ⟨⟨row_of_decode_eq, decode_of_resetRow⟩, ⟨row_of_decode_eq, decode_of_idleRow⟩,
    fun _ => decode_eq_update_iff, ⟨row_of_decode_eq, decode_of_initRow⟩, fun _ => decode_eq_start_iff,
    fun _ => row_unique⟩, ?_, ?_, ?_, ?_, ?_⟩
  all_goals
    rw [rowCount_eq]
    decide

end Sys2Proof

/-! SUPPORT. A listed word's step, and which bits of the word it reads (30_encoding.md R51, R54, R55; 41_commands.md R70). -/

namespace Sys2Proof.Machine

/-- The step performs the command of the listed word, and the host moves on to the rest of its list. -/
theorem step_of_cons {s : State} {w : InputWord} {rest : List InputWord} (h : s.pending = w :: rest) :
    step s = exec (decode w) { s with pending := rest } := by
  rw [step, presented_of_cons h, advanceHost_of_cons h]

theorem exists_step_eq (s : State) : ∃ t, step s = .next t := ⟨_, step_eq_nextAcc s⟩

/-- Settles O6: the ports give RESET or START by the decoder's equations, and START's answer is UPDATE's from the state INIT
leaves. -/
theorem rstOverridesClrAndVld : Obligations.RstOverridesClrAndVld := by
  refine ⟨decode_portsWord_rst, ?_, decode_portsWord_start, ?_⟩
  · intro s clr vld din rest h
    rw [step_of_cons h, decode_portsWord_rst, exec_reset]
  · intro s din rest h
    refine ⟨_, exec_init _, ?_⟩
    rw [step_of_cons h, decode_portsWord_start, exec_start, exec_update]

/-- Words with the same three bits 10 to 8 have the same `rst`, `clr` and `vld`. -/
theorem opcodeBits_eq_of_extractLsb'_eq {w v : InputWord} (h : w.extractLsb' 8 3 = v.extractLsb' 8 3) :
    rstBit w = rstBit v ∧ clrBit w = clrBit v ∧ vldBit w = vldBit v := by
  have hbit (i : Nat) (hi : i < 3) : w.getLsbD (8 + i) = v.getLsbD (8 + i) := by
    simpa [BitVec.getLsbD_extractLsb', hi] using congrArg (BitVec.getLsbD · i) h
  exact ⟨hbit 2 (by omega), hbit 1 (by omega), hbit 0 (by omega)⟩

/-- Without `vld` the byte on `din` is not decoded. -/
theorem decode_congr_of_vldBit_eq_false {w v : InputWord} (hvld : vldBit w = false)
    (h : rstBit w = rstBit v ∧ clrBit w = clrBit v ∧ vldBit w = vldBit v) : decode w = decode v := by
  obtain ⟨hr, hc, hv⟩ := h
  cases hrst : rstBit w with
  | true => rw [decode_of_rst hrst, decode_of_rst (hr ▸ hrst)]
  | false =>
    cases hclr : clrBit w with
    | false => rw [decode_of_idle hrst hclr hvld, decode_of_idle (hr ▸ hrst) (hc ▸ hclr) (hv ▸ hvld)]
    | true => rw [decode_of_init hrst hclr hvld, decode_of_init (hr ▸ hrst) (hc ▸ hclr) (hv ▸ hvld)]

/-- Words that differ in ignored bits only are one command (30_encoding.md R55). -/
theorem decode_congr_of_ignoredBits {w v : InputWord}
    (h : (w.getLsbD 10 = true ∧ v.getLsbD 10 = true) ∨ (w.extractLsb' 8 3 = v.extractLsb' 8 3 ∧ w.getLsbD 8 = false)) :
    decode w = decode v := by
  obtain ⟨hw, hv⟩ | ⟨hbits, hvld⟩ := h
  · rw [decode_of_rst hw, decode_of_rst hv]
  · exact decode_congr_of_vldBit_eq_false hvld (opcodeBits_eq_of_extractLsb'_eq hbits)

theorem toNat_encode_update (b : Byte) : (encode (.update b)).toNat = 0x100 + b.toNat := by
  simp [encode_update, toNat_portsWord]

theorem toNat_encode_start (b : Byte) : (encode (.start b)).toNat = 0x300 + b.toNat := by
  simp [encode_start, toNat_portsWord]

/-- Settles O7: words that differ in ignored bits decode alike, and the step sees of a listed word its command alone. -/
theorem ignoredBitsHaveNoEffect : Obligations.IgnoredBitsHaveNoEffect := by
  refine ⟨exists_step_eq, fun s w v rest h => ?_, rfl, rfl, rfl, toNat_encode_update, toNat_encode_start⟩
  have hd : decode w = decode v := decode_congr_of_ignoredBits h
  have hstep : step { s with pending := w :: rest } = step { s with pending := v :: rest } := by
    rw [step_of_cons (rest := rest) rfl, step_of_cons (rest := rest) rfl, hd]
  exact ⟨hd, hstep, rfl⟩

theorem withFetchWord_of_lt {w : Nat} (h : w < 2048) (s : State) (nbits : Nat) :
    s.withFetchWord nbits w = placeWord (BitVec.ofNat 11 w) s :=
  placeNumber_of_lt h s

theorem decodeTableWord_of_lt {w : Nat} (h : w < 2048) (nbits : Nat) :
    decodeTableWord nbits w = some (decode (BitVec.ofNat 11 w)) := by
  simp [decodeTableWord, decodeNumber, inputWordOfNat_of_lt h]

/-- Settles O9: the placed word is the one listed next. -/
theorem placedWordIsPerformedNext : Obligations.PlacedWordIsPerformedNext := by
  intro s nbits w hw
  rw [withFetchWord_of_lt hw, step_of_cons (placeWord_pending _ s), exec_decode]
  exact ⟨_, rfl, rfl, rfl, rfl, decodeTableWord_of_lt hw nbits, rfl⟩

end Sys2Proof.Machine

/-! SUPPORT. The assembler on operands: the first operand out of range decides a line (30_encoding.md R57, R58; 60_exceptions.md
R92, R96). -/

namespace Sys2Proof.Machine

theorem inByteRange_eq_false_iff {v : Int} : inByteRange v = false ↔ v < 0 ∨ 255 < v := by
  rw [← Bool.not_eq_true, inByteRange_iff]
  omega

/-- Element `i` is `v`, it is no byte, and all elements before it are bytes. -/
def IsFirstInvalid (vs : List Int) (i : Nat) (v : Int) : Prop :=
  vs[i]? = some v ∧ (v < 0 ∨ 255 < v) ∧ ∀ (j : Nat) (u : Int), j < i → vs[j]? = some u → 0 ≤ u ∧ u ≤ 255

theorem isFirstInvalid_cons_zero {x v : Int} {vs : List Int} :
    IsFirstInvalid (x :: vs) 0 v ↔ x = v ∧ (v < 0 ∨ 255 < v) := by
  simp [IsFirstInvalid]

theorem isFirstInvalid_cons_succ {x v : Int} {vs : List Int} {i : Nat} :
    IsFirstInvalid (x :: vs) (i + 1) v ↔ (0 ≤ x ∧ x ≤ 255) ∧ IsFirstInvalid vs i v := by
  constructor
  · rintro ⟨hi, hv, hbefore⟩
    exact ⟨hbefore 0 x (by omega) rfl, hi, hv, fun j u hj hu => hbefore (j + 1) u (by omega) hu⟩
  · rintro ⟨hx, hi, hv, hbefore⟩
    refine ⟨hi, hv, fun j u hj hu => ?_⟩
    cases j with
    | zero => exact Option.some.inj hu ▸ hx
    | succ j => exact hbefore j u (by omega) hu

/-- Counting begins at `k`, so no reported index is below it. -/
theorem le_index_of_firstInvalid {k : Nat} {vs : List Int} {e : InvalidByteValue} (h : firstInvalid k vs = some e) :
    k ≤ e.index := by
  induction vs generalizing k with
  | nil => cases h
  | cons x vs ih =>
    cases hx : inByteRange x with
    | true =>
      rw [firstInvalid_cons_valid hx] at h
      exact Nat.le_of_succ_le (ih h)
    | false =>
      rw [firstInvalid_cons_invalid hx] at h
      cases h
      exact Nat.le_refl k

/-- What the range check reports, counting from `k` (60_exceptions.md R90, R96). -/
theorem firstInvalid_eq_some_iff {k i : Nat} {v : Int} {vs : List Int} :
    firstInvalid k vs = some { index := k + i, value := v } ↔ IsFirstInvalid vs i v := by
  induction vs generalizing k i with
  | nil => simp [firstInvalid, IsFirstInvalid]
  | cons x vs ih =>
    cases hx : inByteRange x with
    | false =>
      rw [firstInvalid_cons_invalid hx]
      have hout := inByteRange_eq_false_iff.1 hx
      cases i with
      | zero =>
        have hvalue : x = v → v < 0 ∨ 255 < v := fun h => h ▸ hout
        rw [isFirstInvalid_cons_zero]
        simpa using hvalue
      | succ i =>
        have hnotbyte : ¬(0 ≤ x ∧ x ≤ 255) := by omega
        rw [isFirstInvalid_cons_succ]
        simp [hnotbyte]
    | true =>
      rw [firstInvalid_cons_valid hx]
      have hin := (inByteRange_iff x).1 hx
      cases i with
      | zero =>
        rw [isFirstInvalid_cons_zero]
        constructor
        · intro h
          have hle : k + 1 ≤ k + 0 := le_index_of_firstInvalid h
          omega
        · rintro ⟨rfl, hv⟩
          omega
      | succ i =>
        rw [isFirstInvalid_cons_succ, ← ih (k := k + 1), Nat.add_right_comm, Nat.add_assoc]
        exact (and_iff_right hin).symm

/-- A MSG line is rejected with its first operand that is no byte, and with nothing else. -/
theorem assemble_msg_eq_error_iff {vs : List Int} {e : InvalidByteValue} :
    assemble [.msg vs] = .error (.invalidByte e) ↔ firstInvalid 0 vs = some e := by
  rw [assemble_msg]
  cases firstInvalid 0 vs <;> simp

theorem assemble_msg_bytes (bytes : List Byte) :
    assemble [.msg (bytes.map fun b => (b.toNat : Int))] = .ok (messageWords bytes) := by
  rw [assemble_msg, firstInvalid_bytes, validPrefix_bytes]

/-- Some operand out of range means a first one is reported. -/
theorem exists_firstInvalid_of_mem {k : Nat} {vs : List Int} {v : Int} (hmem : v ∈ vs) (hv : v < 0 ∨ 255 < v) :
    ∃ e, firstInvalid k vs = some e := by
  induction vs generalizing k with
  | nil => cases hmem
  | cons x vs ih =>
    cases hx : inByteRange x with
    | false => exact ⟨_, firstInvalid_cons_invalid hx k vs⟩
    | true =>
      obtain rfl | hmem := List.mem_cons.1 hmem
      · rw [inByteRange_eq_false_iff.2 hv] at hx
        cases hx
      · rw [firstInvalid_cons_valid hx]
        exact ih hmem

theorem asmBytes_bytes (bytes : List Byte) : asmBytes (bytes.map fun b => (b.toNat : Int)) = .ok bytes := by
  simp [asmBytes, checkedBytes_of_valid]

theorem asmBytes_singleton_invalid {v : Int} (hv : v < 0 ∨ 255 < v) :
    asmBytes [v] = .error (.invalidByte { index := 0, value := v }) := by
  rw [asmBytes, checkedBytes_of_invalid (firstInvalid_cons_invalid (inByteRange_eq_false_iff.2 hv) 0 [])]

/-- A line that expands gives the words of its commands. -/
theorem assemble_of_expandLine {l : SourceLine} {cmds : List Instr} (h : expandLine l = .ok cmds) :
    assemble [l] = .ok (wordsOf cmds) := by
  rw [assemble_singleton, h]

theorem expandLine_update (b : Byte) : expandLine (.update (b.toNat : Int)) = .ok [.update b] := by
  have hbyte : asmBytes [(b.toNat : Int)] = .ok [b] := asmBytes_bytes [b]
  simp [expandLine, hbyte]

theorem expandLine_start (b : Byte) : expandLine (.start (b.toNat : Int)) = .ok [.start b] := by
  have hbyte : asmBytes [(b.toNat : Int)] = .ok [b] := asmBytes_bytes [b]
  simp [expandLine, hbyte]

theorem assemble_update (b : Byte) : assemble [.update (b.toNat : Int)] = .ok [encode (.update b)] :=
  assemble_of_expandLine (expandLine_update b)

theorem assemble_start (b : Byte) : assemble [.start (b.toNat : Int)] = .ok [encode (.start b)] :=
  assemble_of_expandLine (expandLine_start b)

/-- Settles O47: UPDATE and START check a list of one operand, and MSG is decided by its first operand that is no byte. -/
theorem assemblerRejectsNonBytes : Obligations.AssemblerRejectsNonBytes := by
  refine ⟨fun b => ⟨assemble_update b, assemble_start b⟩, fun v hv => ?_, assemble_msg_bytes, fun vs i v => ?_,
    fun vs ⟨v, hmem, hv⟩ => ?_⟩
  · constructor <;> simp [assemble_singleton, expandLine, asmBytes_singleton_invalid hv]
  · rw [assemble_msg_eq_error_iff, ← Nat.zero_add i, firstInvalid_eq_some_iff, Nat.zero_add]
    exact Iff.rfl
  · obtain ⟨e, he⟩ : ∃ e, firstInvalid 0 vs = some e := exists_firstInvalid_of_mem hmem hv
    exact ⟨e, assemble_msg_eq_error_iff.2 he⟩

/-! ### The pseudo-instructions (30_encoding.md R58) -/

theorem wordsOf_replicate (n : Nat) (i : Instr) : wordsOf (List.replicate n i) = List.replicate n (encode i) :=
  List.map_replicate

theorem wordsOf_append (is js : List Instr) : wordsOf (is ++ js) = wordsOf is ++ wordsOf js :=
  List.map_append

theorem messageWords_cons (b : Byte) (bs : List Byte) :
    messageWords (b :: bs) = encode (.start b) :: bs.map fun x => encode (.update x) := by
  simp [messageWords, messageCommands, wordsOf]

/-- COMPUTE of a text is MSG of its codes and READ. -/
theorem assemble_computeText {text : List Char} {codes : List Byte} (h : asciiCodes text = .ok codes) :
    assemble [.computeText text] = assemble [.msg (codes.map fun x => (x.toNat : Int)), .read] := by
  have hread : assemble [.read] = .ok [encode .idle] := rfl
  rw [assemble_singleton, assemble, hread]
  simp [expandLine, h, asmBytes_bytes, wordsOf_append]

theorem nextAcc_encode_init (a : Byte) : nextAcc a (encode .init) = 0x00#8 := by
  simp [nextAcc, encode_init]

theorem nextAcc_encode_start (a b : Byte) : nextAcc a (encode (.start b)) = byteStep 0x00#8 b := by
  simp [nextAcc, encode_start]

theorem nextAcc_encode_update (a b : Byte) : nextAcc a (encode (.update b)) = byteStep a b := by
  simp [nextAcc, encode_update]

/-- INIT and UPDATE of the first byte leave what START of it leaves; the rest of the message is the same. -/
theorem runWords_messageAfter_init (a b : Byte) (bs : List Byte) :
    runWords a (wordsOf (messageAfter .init (b :: bs))) = runWords a (messageWords (b :: bs)) := by
  simp [messageAfter, messageWords, messageCommands, nextAcc_encode_init, nextAcc_encode_start, nextAcc_encode_update]

/-- Settles O48: each line's expansion, and the equal accumulator after INIT and UPDATE as after START. -/
theorem pseudoInstructionsExpand : Obligations.PseudoInstructionsExpand := by
  refine ⟨rfl, fun n => ?_, fun b bs => ?_, rfl, fun _ _ => assemble_computeText, fun a b bs => ?_⟩
  · rw [assemble_of_expandLine rfl, wordsOf_replicate, encode]
  · rw [assemble_msg_bytes, messageWords_cons]
  · refine ⟨runWords_messageAfter_init a b bs, ?_⟩
    simp [messageAfter, messageWords_cons, wordsOf]

end Sys2Proof.Machine

/-! SUPPORT. The disassembler's text read back (30_encoding.md R57, R59): a printed digit has its value, a printed line is the
source line of its command, and a text is cut at its line ends. -/

namespace Sys2Proof.Machine

theorem hexDigit_hexChar {n : Nat} (h : n < 16) : hexDigit (hexChar n) = some n := by
  revert n
  decide

/-- A printed digit is no line end. -/
theorem hexChar_ne_newline {n : Nat} (h : n < 16) : hexChar n ≠ '\n' := by
  revert n
  decide

/-- The operand as the disassembler prints it is read back as the byte's value. -/
theorem readOperand_byteText (b : Byte) (rest : List Char) :
    readOperand (byteText b ++ rest) = some ((b.toNat : Int), rest) := by
  have hhigh : hexDigit (hexChar (b.toNat / 16)) = some (b.toNat / 16) := hexDigit_hexChar (by omega)
  have hlow : hexDigit (hexChar (b.toNat % 16)) = some (b.toNat % 16) := hexDigit_hexChar (by omega)
  have hvalue : 16 * (b.toNat / 16) + b.toNat % 16 = b.toNat := Nat.div_add_mod _ _
  simp only [byteText, List.cons_append, List.nil_append, readOperand, hhigh, hlow, hvalue]

theorem readOperands_byteText {rest : List Char} (hrest : isLineEnd rest = true) (b : Byte) :
    readOperands 1 (' ' :: (byteText b ++ rest)) = some [(b.toNat : Int)] := by
  have hskip : skipBlanks (' ' :: (byteText b ++ rest)) = byteText b ++ rest := rfl
  simp [readOperands, hskip, readOperand_byteText, hrest]

/-- The source line of a command. -/
def sourceOf : Instr → SourceLine
  | .reset => .reset
  | .idle => .idle
  | .update b => .update b.toNat
  | .init => .init
  | .start b => .start b.toNat

theorem expandLine_sourceOf (i : Instr) : expandLine (sourceOf i) = .ok [i] := by
  cases i with
  | reset => rfl
  | idle => rfl
  | update b => exact expandLine_update b
  | init => rfl
  | start b => exact expandLine_start b

/-- Each line assembles to the canonical word of its command. -/
theorem assemble_sourceOf (is : List Instr) : assemble (is.map sourceOf) = .ok (wordsOf is) := by
  induction is with
  | nil => rfl
  | cons i is ih => simp [assemble, expandLine_sourceOf, ih]

/-! ### One printed line -/

theorem isBlank_of_isUpper {c : Char} (hc : isUpper c = true) : isBlank c = false := by
  rw [isBlank, Bool.or_eq_false_iff, beq_eq_false_iff_ne, beq_eq_false_iff_ne]
  constructor <;> rintro rfl <;> cases hc

/-- A line that begins with a letter holds a command. -/
theorem isLineEnd_cons_of_isUpper {c : Char} (hc : isUpper c = true) (cs : List Char) : isLineEnd (c :: cs) = false := by
  have hblank : isBlank c = false := isBlank_of_isUpper hc
  have hsemicolon : c ≠ ';' := by
    rintro rfl
    cases hc
  simp [isLineEnd, skipBlanks, hblank, hsemicolon]

/-- What may follow a command does not begin with a letter. -/
theorem takeWhile_isUpper_of_isLineEnd {tail : List Char} (h : isLineEnd tail = true) : tail.takeWhile isUpper = [] := by
  cases tail with
  | nil => rfl
  | cons c cs =>
    refine List.takeWhile_cons_of_neg fun hc => ?_
    rw [isLineEnd_cons_of_isUpper hc] at h
    cases h

/-- A line is read as its leading letters, the mnemonic, and the text after them. -/
theorem parseLine_of_mnemonic {c : Char} {cs rest : List Char} {l : SourceLine}
    (hupper : ∀ d ∈ c :: cs, isUpper d = true) (hrest : rest.takeWhile isUpper = [])
    (hcmd : parseCommand (c :: cs) rest = some l) : parseLine (c :: cs ++ rest) = .ok (some l) := by
  have hc : isUpper c = true := hupper c List.mem_cons_self
  have hend : isLineEnd (c :: cs ++ rest) = false := isLineEnd_cons_of_isUpper hc (cs ++ rest)
  have hskip : skipBlanks (c :: cs ++ rest) = c :: cs ++ rest :=
    List.dropWhile_cons_of_neg (by simp [isBlank_of_isUpper hc])
  have htake : (c :: cs ++ rest).takeWhile isUpper = c :: cs := by
    rw [List.takeWhile_append_of_pos hupper, hrest, List.append_nil]
  have hdrop : (c :: cs ++ rest).dropWhile isUpper = rest := by
    have hself := rest.takeWhile_append_dropWhile (p := isUpper)
    rwa [hrest, List.nil_append, ← List.dropWhile_append_of_pos hupper] at hself
  simp only [parseLine, hend, hskip, htake, hdrop, hcmd, Bool.false_eq_true, if_false]

/-- The mnemonic of a command (30_encoding.md R57). -/
def mnemonicOf : Instr → List Char
  | .reset => ['R', 'E', 'S', 'E', 'T']
  | .idle => ['I', 'D', 'L', 'E']
  | .update _ => ['U', 'P', 'D', 'A', 'T', 'E']
  | .init => ['I', 'N', 'I', 'T']
  | .start _ => ['S', 'T', 'A', 'R', 'T']

/-- The text of a command after its mnemonic (30_encoding.md R59). -/
def operandText : Instr → List Char
  | .reset => []
  | .idle => []
  | .update b => ' ' :: byteText b
  | .init => []
  | .start b => ' ' :: byteText b

theorem disassemble_eq (w : InputWord) : disassemble w = mnemonicOf (decode w) ++ operandText (decode w) := by
  rw [disassemble]
  cases decode w <;> rfl

theorem isUpper_of_mem_mnemonicOf {i : Instr} : ∀ c ∈ mnemonicOf i, isUpper c = true := by
  cases i <;> exact List.all_eq_true.1 rfl

theorem parseCommand_mnemonicOf (i : Instr) {tail : List Char} (htail : isLineEnd tail = true) :
    parseCommand (mnemonicOf i) (operandText i ++ tail) = some (sourceOf i) := by
  cases i with
  | reset => simp [parseCommand, mnemonicOf, operandText, sourceOf, htail]
  | idle => simp [parseCommand, mnemonicOf, operandText, sourceOf, htail]
  | update b => simp [parseCommand, mnemonicOf, operandText, sourceOf, readOperands_byteText htail]
  | init => simp [parseCommand, mnemonicOf, operandText, sourceOf, htail]
  | start b => simp [parseCommand, mnemonicOf, operandText, sourceOf, readOperands_byteText htail]

/-- A printed command, with nothing or a comment after it, is read as the source line of the command. -/
theorem parseLine_disassemble_append (w : InputWord) {tail : List Char} (htail : isLineEnd tail = true) :
    parseLine (disassemble w ++ tail) = .ok (some (sourceOf (decode w))) := by
  have hcmd := parseCommand_mnemonicOf (decode w) htail
  have hrest : (operandText (decode w) ++ tail).takeWhile isUpper = [] := by
    cases decode w with
    | update b => rfl
    | start b => rfl
    | _ => exact takeWhile_isUpper_of_isLineEnd htail
  obtain ⟨c, cs, hm⟩ : ∃ c cs, mnemonicOf (decode w) = c :: cs := by
    cases decode w <;> exact ⟨_, _, rfl⟩
  rw [disassemble_eq, List.append_assoc, hm]
  exact parseLine_of_mnemonic (hm ▸ isUpper_of_mem_mnemonicOf) hrest (hm ▸ hcmd)

/-! ### Lines of a text -/

theorem splitLines_of_notMem {l : List Char} (h : '\n' ∉ l) : splitLines l = [l] := by
  induction l with
  | nil => rfl
  | cons c l ih =>
    obtain ⟨hc, hl⟩ := not_or.1 (mt List.mem_cons.2 h)
    simp [splitLines, Ne.symm hc, ih hl]

theorem splitLines_append_newline {l : List Char} (h : '\n' ∉ l) (cs : List Char) :
    splitLines (l ++ '\n' :: cs) = l :: splitLines cs := by
  induction l with
  | nil => rfl
  | cons c l ih =>
    obtain ⟨hc, hl⟩ := not_or.1 (mt List.mem_cons.2 h)
    simp [splitLines, Ne.symm hc, ih hl]

theorem newline_notMem_byteText (b : Byte) : '\n' ∉ byteText b := by
  have hhigh := hexChar_ne_newline (n := b.toNat / 16) (by omega)
  have hlow := hexChar_ne_newline (n := b.toNat % 16) (by omega)
  simp [byteText, hhigh.symm, hlow.symm]

theorem newline_notMem_disassemble (w : InputWord) : '\n' ∉ disassemble w := by
  have hmnemonic : '\n' ∉ mnemonicOf (decode w) := fun h => by
    cases isUpper_of_mem_mnemonicOf _ h
  have hoperand : '\n' ∉ operandText (decode w) := by
    cases decode w <;> simp [operandText, newline_notMem_byteText]
  rw [disassemble_eq, List.mem_append]
  exact not_or.2 ⟨hmnemonic, hoperand⟩

/-- A text of one command assembles to that command's word. -/
theorem assembleText_of_parseLine {l : List Char} {i : Instr} (hl : '\n' ∉ l)
    (h : parseLine l = .ok (some (sourceOf i))) : assembleText l = .ok [encode i] := by
  have hparse : parseLines [l] = .ok ([i].map sourceOf) := by
    simp [parseLines, h]
  rw [assembleText, splitLines_of_notMem hl, hparse]
  exact assemble_sourceOf [i]

theorem assembleText_disassemble (w : InputWord) : assembleText (disassemble w) = .ok [encode (decode w)] := by
  refine assembleText_of_parseLine (newline_notMem_disassemble w) ?_
  simpa using parseLine_disassemble_append w (tail := []) rfl

/-- The comment with the whole word is skipped. -/
theorem assembleText_disassembleWhole (w : InputWord) :
    assembleText (disassembleWhole w) = .ok [encode (decode w)] := by
  refine assembleText_of_parseLine ?_ (parseLine_disassemble_append w rfl)
  have hhigh := hexChar_ne_newline (n := w.toNat / 256) (by omega)
  have hmid := hexChar_ne_newline (n := w.toNat / 16 % 16) (by omega)
  have hlow := hexChar_ne_newline (n := w.toNat % 16) (by omega)
  simp [disassembleWhole, newline_notMem_disassemble w, hhigh.symm, hmid.symm, hlow.symm]

/-- Settles O49: the spellings are the rows' mnemonics and operands, and one printed line is read back as its command. -/
theorem disassemblyAssemblesBack : Obligations.DisassemblyAssemblesBack := by
  refine ⟨fun w => ⟨fun hr => ?_, fun hr hc hv => ?_, fun hr hc hv => ?_, fun hr hc hv => ?_, fun hr hc hv => ?_⟩,
    assembleText_disassemble, assembleText_disassembleWhole, encode_decode⟩
  · rw [disassemble, decode_of_rst hr]
  · rw [disassemble, decode_of_idle hr hc hv]
  · rw [disassemble, decode_of_update hr hc hv, dinField]
  · rw [disassemble, decode_of_init hr hc hv]
  · rw [disassemble, decode_of_start hr hc hv, dinField]

/-- A listing is read line by line; the blank line after its last line end holds no command (log 12). -/
theorem parseLines_listing (ws : List InputWord) :
    parseLines (splitLines (listing ws)) = .ok ((ws.map decode).map sourceOf) := by
  induction ws with
  | nil => rfl
  | cons w ws ih =>
    have hline : parseLine (disassemble w) = .ok (some (sourceOf (decode w))) := by
      simpa using parseLine_disassemble_append w (tail := []) rfl
    rw [listing, splitLines_append_newline (newline_notMem_disassemble w), parseLines, hline, ih]
    rfl

/-- Settles O50: the listing is read as the commands of its words, by induction on the words. -/
theorem listingAssemblesBack : Obligations.ListingAssemblesBack := by
  intro ws
  rw [assembleText, parseLines_listing]
  exact (assemble_sourceOf _).trans (congrArg Except.ok List.map_map)

end Sys2Proof.Machine

/-! SUPPORT. The shift and the sub-step bit by bit (40_datapath.md R60, R61). -/

namespace Sys2Proof.Machine

theorem toNat_shl1 (v : Byte) : (shl1 v).toNat = 2 * v.toNat % 256 := by
  rw [shl1, BitVec.toNat_shiftLeft, Nat.shiftLeft_eq, Nat.mul_comm]

@[simp] theorem shl1_getLsbD_zero (v : Byte) : (shl1 v).getLsbD 0 = false := by
  simp [shl1]

theorem shl1_getLsbD_succ (v : Byte) {k : Nat} (hk : k < 7) : (shl1 v).getLsbD (k + 1) = v.getLsbD k := by
  have hlt : k + 1 < 8 := by omega
  rw [shl1, BitVec.getLsbD_shiftLeft]
  simp [hlt, -BitVec.getLsbD_eq_getElem]

/-- Settles O20: the shift as a product, and where each bit goes. -/
theorem shiftDoublesModulo256 : Obligations.ShiftDoublesModulo256 :=
  fun v => ⟨toNat_shl1 v, shl1_getLsbD_zero v, fun _ => shl1_getLsbD_succ v⟩

/-- A sub-step as one XOR: the test of bit 7 chooses between POLY and 0x00. -/
theorem bitStep_eq_xor (c : Byte) : bitStep c = shl1 c ^^^ if c.getLsbD 7 then 0x1D#8 else 0x00#8 := by
  rw [bitStep, highBit_eq]
  cases c.getLsbD 7
  · exact BitVec.xor_zero.symm
  · rfl

/-- Each bit of a sub-step comes from the bit below it; bits 0, 2, 3 and 4, where POLY is 1, take in bit 7. -/
theorem bitStep_getLsbD (c : Byte) (k : Nat) :
    (bitStep c).getLsbD k = ((shl1 c).getLsbD k ^^ (c.getLsbD 7 && (0x1D#8).getLsbD k)) := by
  rw [bitStep_eq_xor, BitVec.getLsbD_xor]
  cases c.getLsbD 7 <;> simp

theorem getLsbD_seven_iff (c : Byte) : c.getLsbD 7 = true ↔ c &&& 0x80#8 ≠ 0#8 := by
  rw [← highBit_eq, highBit, bne_iff_ne]

theorem bitStep_eq_ofNat (c : Byte) :
    bitStep c = BitVec.ofNat 8 ((2 * c.toNat) % 256) ^^^ BitVec.ofNat 8 (0x1D * (c.getLsbD 7).toNat) := by
  rw [bitStep_eq_xor, ← toNat_shl1, BitVec.ofNat_toNat, BitVec.setWidth_eq]
  cases c.getLsbD 7 <;> rfl

/-- Settles O21: both forms read a sub-step as one XOR, as a number and bit by bit. -/
theorem subStepTestsBitSevenBeforeTheShift : Obligations.SubStepTestsBitSevenBeforeTheShift := by
  refine ⟨fun c => ?_, getLsbD_seven_iff, bitStep_eq_ofNat, fun c => ?_, by decide⟩
  · rw [bitStep, highBit_eq, Config.poly]
  · simp [bitStep_getLsbD, shl1_getLsbD_succ, -BitVec.getLsbD_eq_getElem]

/-! ### Eight sub-steps (40_datapath.md R62, R63) -/

theorem tStep_eq_iterate : tStep = bitStep^[8] :=
  bitSteps_eq_iterate Config.subSteps

/-- Settles O22: the model's count of sub-steps is 8 for every byte; the nine values are one evaluation. -/
theorem byteStepIsEightSubSteps : Obligations.ByteStepIsEightSubSteps := by
  refine ⟨fun a b => ?_, by decide⟩
  rw [byteStep_eq_tStep, tStep_eq_iterate]

end Sys2Proof.Machine

/-! SUPPORT. `T` is linear, so it is known from its values at the eight one-bit bytes, and its bits are the XOR equations that
unroll the eight sub-steps (40_datapath.md R66). -/

namespace Sys2Proof.Machine

theorem bitSteps_xor (n : Nat) (x y : Byte) : bitSteps n (x ^^^ y) = bitSteps n x ^^^ bitSteps n y := by
  induction n generalizing x y with
  | zero => rfl
  | succ n ih => rw [bitSteps, bitStep_xor, ih, bitSteps, bitSteps]

theorem tStep_xor (x y : Byte) : tStep (x ^^^ y) = tStep x ^^^ tStep y :=
  bitSteps_xor Config.subSteps x y

@[simp] theorem tStep_zero : tStep 0x00#8 = 0x00#8 := by decide

/-- A mask given as an XOR picks out the XOR of the parts. -/
theorem and_xor_distrib (x y z : Byte) : x &&& (y ^^^ z) = x &&& y ^^^ x &&& z := by
  refine BitVec.eq_of_getLsbD_eq fun k _ => ?_
  simp only [BitVec.getLsbD_and, BitVec.getLsbD_xor, Bool.and_xor_distrib_left]

/-- A byte is the XOR of its eight one-bit parts. -/
theorem xor_and_twoPow (x : Byte) :
    x &&& BitVec.twoPow 8 0 ^^^ x &&& BitVec.twoPow 8 1 ^^^ x &&& BitVec.twoPow 8 2 ^^^ x &&& BitVec.twoPow 8 3
      ^^^ x &&& BitVec.twoPow 8 4 ^^^ x &&& BitVec.twoPow 8 5 ^^^ x &&& BitVec.twoPow 8 6
      ^^^ x &&& BitVec.twoPow 8 7 = x := by
  simp only [← and_xor_distrib]
  exact BitVec.and_allOnes

theorem tStep_and_twoPow (x : Byte) (k : Nat) :
    tStep (x &&& BitVec.twoPow 8 k) = if x.getLsbD k then tStep (BitVec.twoPow 8 k) else 0x00#8 := by
  rw [BitVec.and_twoPow, apply_ite tStep, tStep_zero]

/-- `T` of a byte is the XOR of the values of `T` at its one-bit parts; the eight values themselves are evaluated. -/
theorem tStep_eq_xor_oneBit (x : Byte) :
    tStep x = (if x.getLsbD 0 then 0x1D#8 else 0x00#8) ^^^ (if x.getLsbD 1 then 0x3A#8 else 0x00#8)
      ^^^ (if x.getLsbD 2 then 0x74#8 else 0x00#8) ^^^ (if x.getLsbD 3 then 0xE8#8 else 0x00#8)
      ^^^ (if x.getLsbD 4 then 0xCD#8 else 0x00#8) ^^^ (if x.getLsbD 5 then 0x87#8 else 0x00#8)
      ^^^ (if x.getLsbD 6 then 0x13#8 else 0x00#8) ^^^ (if x.getLsbD 7 then 0x26#8 else 0x00#8) := by
  conv_lhs => rw [← xor_and_twoPow x]
  simp only [tStep_xor, tStep_and_twoPow]
  rfl

theorem getLsbD_ite_zero (b : Bool) (v : Byte) (i : Nat) :
    (if b then v else 0x00#8).getLsbD i = (b && v.getLsbD i) := by
  cases b <;> simp

/-- Bit `i` of `T` takes in the bits of the byte whose one-bit value has bit `i`. -/
theorem tStep_getLsbD (x : Byte) (i : Nat) :
    (tStep x).getLsbD i = (x.getLsbD 0 && (0x1D#8).getLsbD i ^^ x.getLsbD 1 && (0x3A#8).getLsbD i
      ^^ x.getLsbD 2 && (0x74#8).getLsbD i ^^ x.getLsbD 3 && (0xE8#8).getLsbD i ^^ x.getLsbD 4 && (0xCD#8).getLsbD i
      ^^ x.getLsbD 5 && (0x87#8).getLsbD i ^^ x.getLsbD 6 && (0x13#8).getLsbD i
      ^^ x.getLsbD 7 && (0x26#8).getLsbD i) := by
  simp only [tStep_eq_xor_oneBit x, BitVec.getLsbD_xor, getLsbD_ite_zero]

/-- Settles O23: `T` is linear, and the XOR equations are read off its eight one-bit values. -/
theorem byteStepIsLinear : Obligations.ByteStepIsLinear := by
  refine ⟨fun a b => ⟨byteStep_eq_tStep a b, tStep_xor a b⟩, fun x => ?_, tStep_xor, tStep_zero, by decide, by decide,
    by decide, by decide, by decide, by decide, by decide, by decide, ?_⟩
  · rw [tStep_eq_iterate]
  · rintro a b x rfl
    simp only [byteStep_eq_tStep]
    generalize a ^^^ b = x
    simp [tStep_getLsbD, -BitVec.getLsbD_eq_getElem]

end Sys2Proof.Machine

/-! SUPPORT. `T` on the 256 bytes: a bijection, and of order 255 at 0x01 (40_datapath.md R67). -/

namespace Sys2Proof.Machine

theorem tStep_bijective : Function.Bijective tStep :=
  Finite.injective_iff_bijective.1 tStep_injective

/-- Only equal operands give 0x00: their XOR is 0x00, and `T` sends only 0x00 there. -/
theorem byteStep_eq_zero_iff (a b : Byte) : byteStep a b = 0x00#8 ↔ a = b := by
  rw [byteStep_eq_tStep, ← tStep_zero, tStep_injective.eq_iff, BitVec.xor_eq_zero_iff]

/-- The period of 0x01 under the sub-step divides 255, and it is no smaller divisor: each of those divides 85, 51 or 15
(the generator is primitive). -/
theorem minimalPeriod_bitStep_one : Function.minimalPeriod bitStep 0x01#8 = 255 := by
  have hperiodic : Function.IsPeriodicPt bitStep 255 0x01#8 := by
    show bitStep^[255] 0x01#8 = 0x01#8
    decide +kernel
  have hsmaller : ¬ (bitStep^[85] 0x01#8 = 0x01#8 ∨ bitStep^[51] 0x01#8 = 0x01#8 ∨ bitStep^[15] 0x01#8 = 0x01#8) := by
    decide +kernel
  have hproper : ∀ d ∈ Nat.properDivisors 255, d ∣ 85 ∨ d ∣ 51 ∨ d ∣ 15 := by decide +kernel
  have hdvd := hperiodic.minimalPeriod_dvd
  by_contra hne
  have hlt := lt_of_le_of_ne (Nat.le_of_dvd (by decide) hdvd) hne
  have h := hproper _ (Nat.mem_properDivisors.2 ⟨hdvd, hlt⟩)
  simp only [← Function.isPeriodicPt_iff_minimalPeriod_dvd] at h
  exact hsmaller h

/-- Eight sub-steps keep the period, 8 being coprime to 255. -/
theorem minimalPeriod_tStep_one : Function.minimalPeriod tStep 0x01#8 = 255 := by
  rw [tStep_eq_iterate, Function.minimalPeriod_iterate_eq_div_gcd (by decide), minimalPeriod_bitStep_one]
  rfl

/-- Settles O24: the sections are bijections as `T` is, and 255 is the period of 0x01. -/
theorem byteStepIsABijection : Obligations.ByteStepIsABijection := by
  refine ⟨tStep_bijective, byteStep_bijective_of_byte, byteStep_bijective_of_acc,
    (byteStep_bijective_of_acc 0x00#8).surjective, byteStep_eq_zero_iff, (byteStep_eq_zero_iff _ _).2 rfl, ?_, ?_⟩
  · rw [← minimalPeriod_tStep_one]
    exact Function.iterate_minimalPeriod
  · intro k hpos hlt
    rw [← minimalPeriod_tStep_one] at hlt
    exact Function.not_isPeriodicPt_of_pos_of_lt_minimalPeriod hpos.ne' hlt

end Sys2Proof.Machine

/-! SUPPORT. Bytes as polynomials over GF(2) (40_datapath.md R68). The steps are computed in the ring of polynomials modulo
`G`, where a sub-step is multiplication by `x`; a byte has degree below 8, so it is the remainder of all it is congruent to. -/

namespace Sys2Proof.Machine

open Polynomial

theorem bytePoly_mem_degreeLT (v : Byte) : bytePoly v ∈ degreeLT (ZMod 2) 8 := by
  refine Submodule.sum_mem _ fun k hk => ?_
  have hlt : (k : WithBot ℕ) < 8 := by exact_mod_cast Finset.mem_range.1 hk
  split
  · exact mem_degreeLT.2 ((degree_X_pow_le k).trans_lt hlt)
  · exact Submodule.zero_mem _

theorem degree_bytePoly_lt (v : Byte) : (bytePoly v).degree < 8 :=
  mem_degreeLT.1 (bytePoly_mem_degreeLT v)

/-- XOR of bytes is addition over GF(2). -/
theorem bytePoly_xor (x y : Byte) : bytePoly (x ^^^ y) = bytePoly x + bytePoly y := by
  rw [bytePoly, bytePoly, bytePoly, ← Finset.sum_add_distrib]
  refine Finset.sum_congr rfl fun k _ => ?_
  rw [BitVec.getLsbD_xor]
  cases x.getLsbD k <;> cases y.getLsbD k <;> simp [CharTwo.add_self_eq_zero]

@[simp] theorem bytePoly_zero : bytePoly 0x00#8 = 0 := by
  simp [bytePoly]

/-- `G` is the byte POLY with the implicit `x^8` term. -/
theorem generatorPoly_eq : generatorPoly = X ^ 8 + bytePoly 0x1D#8 := by
  have hpoly : bytePoly 0x1D#8 = 1 + X ^ 2 + X ^ 3 + X ^ 4 := by
    simp [bytePoly, Finset.sum_range_succ]
  rw [generatorPoly, hpoly]
  ring

theorem generatorPoly_monic : generatorPoly.Monic := by
  rw [generatorPoly_eq]
  exact monic_X_pow_add (degree_bytePoly_lt _)

theorem degree_generatorPoly : generatorPoly.degree = 8 := by
  have hlt : (bytePoly 0x1D#8).degree < (X ^ 8 : (ZMod 2)[X]).degree := by
    rw [degree_X_pow]
    exact degree_bytePoly_lt _
  rw [generatorPoly_eq, degree_add_eq_left_of_degree_lt hlt, degree_X_pow]
  rfl

/-- Modulo `G`, `x^8` is the byte POLY: in GF(2) their sum is their difference. -/
theorem mk_X_pow_eight : AdjoinRoot.mk generatorPoly (X ^ 8) = AdjoinRoot.mk generatorPoly (bytePoly 0x1D#8) := by
  rw [AdjoinRoot.mk_eq_mk, CharTwo.sub_eq_add, ← generatorPoly_eq]

/-- A byte is the remainder of what it is congruent to modulo `G`, its degree being below 8. -/
theorem bytePoly_eq_modByMonic {v : Byte} {p : (ZMod 2)[X]}
    (h : AdjoinRoot.mk generatorPoly (bytePoly v) = AdjoinRoot.mk generatorPoly p) :
    bytePoly v = p %ₘ generatorPoly := by
  rw [← modByMonic_eq_of_dvd_sub generatorPoly_monic (AdjoinRoot.mk_eq_mk.1 h), eq_comm,
    modByMonic_eq_self_iff generatorPoly_monic, degree_generatorPoly]
  exact degree_bytePoly_lt v

/-- The shift drops bit 7 and multiplies what is left by `x`. -/
theorem bytePoly_shl1 (c : Byte) :
    bytePoly (shl1 c) = (∑ k ∈ Finset.range 7, if c.getLsbD k then X ^ k else 0) * X := by
  rw [bytePoly, Finset.sum_range_succ', shl1_getLsbD_zero, if_neg Bool.false_ne_true, add_zero, Finset.sum_mul]
  refine Finset.sum_congr rfl fun k hk => ?_
  rw [shl1_getLsbD_succ c (Finset.mem_range.1 hk), ite_mul, ← pow_succ, zero_mul]

/-- Multiplied by `x`, a byte is its shift and `x^8` where bit 7 is 1. -/
theorem bytePoly_mul_X (c : Byte) :
    bytePoly c * X = bytePoly (shl1 c) + if c.getLsbD 7 then X ^ 8 else 0 := by
  rw [bytePoly_shl1, bytePoly, Finset.sum_range_succ, add_mul, ite_mul, ← pow_succ, zero_mul]

/-- A sub-step multiplies by `x` modulo `G`. -/
theorem mk_bytePoly_bitStep (c : Byte) :
    AdjoinRoot.mk generatorPoly (bytePoly (bitStep c)) = AdjoinRoot.mk generatorPoly (bytePoly c * X) := by
  rw [bitStep_eq_xor, bytePoly_xor, bytePoly_mul_X, map_add, map_add]
  congr 1
  cases c.getLsbD 7
  · simp
  · exact mk_X_pow_eight.symm

theorem mk_bytePoly_bitSteps (n : Nat) (c : Byte) :
    AdjoinRoot.mk generatorPoly (bytePoly (bitSteps n c)) = AdjoinRoot.mk generatorPoly (bytePoly c * X ^ n) := by
  induction n generalizing c with
  | zero => rw [bitSteps, pow_zero, mul_one]
  | succ n ih => rw [bitSteps, ih, map_mul, mk_bytePoly_bitStep, ← map_mul, mul_assoc, ← pow_succ']

/-- A byte absorbed is added in and multiplied by `x^8` modulo `G`. -/
theorem mk_bytePoly_byteStep (a b : Byte) :
    AdjoinRoot.mk generatorPoly (bytePoly (byteStep a b))
      = AdjoinRoot.mk generatorPoly (bytePoly (a ^^^ b) * X ^ 8) :=
  mk_bytePoly_bitSteps Config.subSteps (a ^^^ b)

/-- The fold from any accumulator: the accumulator stands before the message and, unlike it, is not multiplied by a further
`x^8`. -/
theorem mk_bytePoly_fold (a : Byte) (bytes : List Byte) :
    AdjoinRoot.mk generatorPoly (bytePoly (fold a bytes))
      = AdjoinRoot.mk generatorPoly (bytePoly a * X ^ (8 * bytes.length) + messagePoly bytes * X ^ 8) := by
  induction bytes generalizing a with
  | nil => simp [messagePoly]
  | cons b bytes ih =>
    rw [fold_cons, ih, map_add, map_mul, mk_bytePoly_byteStep, ← map_mul, ← map_add, bytePoly_xor, messagePoly,
      List.length_cons]
    refine congrArg _ ?_
    ring

/-- Settles O25: each side is a byte congruent to the product modulo `G`, and the fold starts from the zero polynomial. -/
theorem checksumIsThePolynomialRemainder : Obligations.ChecksumIsThePolynomialRemainder := by
  refine ⟨fun c => bytePoly_eq_modByMonic (mk_bytePoly_bitStep c),
    fun a b => bytePoly_eq_modByMonic (mk_bytePoly_byteStep a b), fun bytes => bytePoly_eq_modByMonic ?_⟩
  rw [mk_bytePoly_fold, bytePoly_zero, zero_mul, zero_add]

end Sys2Proof.Machine

/-! SUPPORT. The rows of `next`, read from the opcode bits, and the step of a listed and of a free word (41_commands.md R70). -/

namespace Sys2Proof.Machine

theorem nextAcc_of_rst {w : InputWord} (a : Byte) (hr : rstBit w = true) : nextAcc a w = 0x00#8 := by
  simp [nextAcc, hr]

theorem nextAcc_of_idle {w : InputWord} (a : Byte) (hr : rstBit w = false) (hc : clrBit w = false)
    (hv : vldBit w = false) : nextAcc a w = a := by
  simp [nextAcc, hr, hc, hv]

theorem nextAcc_of_init {w : InputWord} (a : Byte) (hr : rstBit w = false) (hc : clrBit w = true)
    (hv : vldBit w = false) : nextAcc a w = 0x00#8 := by
  simp [nextAcc, hr, hc, hv]

theorem nextAcc_of_update {w : InputWord} (a : Byte) (hr : rstBit w = false) (hc : clrBit w = false)
    (hv : vldBit w = true) : nextAcc a w = byteStep a (dinField w) := by
  simp [nextAcc, hr, hc, hv]

theorem nextAcc_of_start {w : InputWord} (a : Byte) (hr : rstBit w = false) (hc : clrBit w = true)
    (hv : vldBit w = true) : nextAcc a w = byteStep 0x00#8 (dinField w) := by
  simp [nextAcc, hr, hc, hv]

/-- The circuit's base, absorption and override give the case split's value in each row. -/
theorem nextAcc_eq_circuitNext (a : Byte) (w : InputWord) : nextAcc a w = circuitNext a w := by
  obtain ⟨hr, -⟩ | ⟨hr, hc, hv, -⟩ | ⟨hr, hc, hv, -⟩ | ⟨hr, hc, hv, -⟩ | ⟨hr, hc, hv, -⟩ := decode_cases w
  · simp [nextAcc_of_rst, circuitNext, hr]
  · simp [nextAcc_of_idle, circuitNext, hr, hc, hv]
  · simp [nextAcc_of_update, circuitNext, hr, hc, hv]
  · simp [nextAcc_of_init, circuitNext, hr, hc, hv]
  · simp [nextAcc_of_start, circuitNext, hr, hc, hv]

/-- Settles O10: one cycle is `next` because each command is, and the rows of `next` are read off its case split. -/
theorem stepIsTheNextFunction : Obligations.StepIsTheNextFunction :=
  ⟨step_eq_nextAcc, crc_eq,
    fun a _ => ⟨nextAcc_of_rst a, nextAcc_of_idle a, nextAcc_of_init a, nextAcc_of_update a, nextAcc_of_start a⟩,
    nextAcc_eq_circuitNext, runWords_nil, runWords_cons⟩

/-- With no word listed, the step performs the command of a free word (log 2). -/
theorem step_of_nil {s : State} (h : s.pending = []) :
    step s = exec (decode (Config.hostWord s.drawn)) { s with drawn := s.drawn + 1 } := by
  rw [step, presented_of_nil h, advanceHost_of_nil h]

/-- Settles O8: the word on the ports and the host's move are known in both cases of the list. -/
theorem stepRunsTheDecodedCommand : Obligations.StepRunsTheDecodedCommand :=
  ⟨fun _ _ _ => step_of_cons, fun _ => step_of_nil⟩

theorem step_eq_nextAcc_of_cons {s : State} {w : InputWord} {rest : List InputWord} (h : s.pending = w :: rest) :
    step s = .next { s with acc := nextAcc s.acc w, pending := rest } := by
  rw [step_of_cons h, exec_decode]

theorem step_eq_nextAcc_of_nil {s : State} (h : s.pending = []) :
    step s = .next { s with acc := nextAcc s.acc (Config.hostWord s.drawn), drawn := s.drawn + 1 } := by
  rw [step_of_nil h, exec_decode]

/-! ### The invariant of a run -/

/-- Once a further free word has been taken, the invariant asks nothing of the accumulator. -/
theorem onCourse_of_lt_drawn {n : Nat} {s : State} (r : Byte) (h : n < s.drawn) : OnCourse r n s :=
  ⟨h.le, fun heq => absurd heq h.ne'⟩

/-- Settles O41: a listed word moves its `next` from the words to come into the accumulator, and a free word raises the count
past `n`. -/
theorem stepsKeepTheRunOnCourse : Obligations.StepsKeepTheRunOnCourse := by
  rintro r n s t ⟨hle, hrun⟩ hstep
  cases hp : s.pending with
  | nil =>
    rw [step_eq_nextAcc_of_nil hp] at hstep
    cases hstep
    exact onCourse_of_lt_drawn r (Nat.lt_succ_of_le hle)
  | cons w rest =>
    rw [step_eq_nextAcc_of_cons hp] at hstep
    cases hstep
    rw [hp, runWords_cons] at hrun
    exact ⟨hle, hrun⟩

end Sys2Proof.Machine

/-! SUPPORT. Runs over listed words, and which words leave a run as it is (41_commands.md R70, R72; 70_reset_and_hazards.md
R110). -/

namespace Sys2Proof.Machine

/-- As many steps as words are listed first leave `run` of them, and the rest of the list (41_commands.md R70). -/
theorem runSteps_of_append {s : State} {ws rest : List InputWord} (h : s.pending = ws ++ rest) :
    runSteps ws.length s = .next { s with acc := runWords s.acc ws, pending := rest } := by
  induction ws generalizing s with
  | nil =>
    obtain rfl : s.pending = rest := h
    rfl
  | cons w ws ih => rw [List.length_cons, runSteps_succ_of_next _ (step_eq_nextAcc_of_cons h), ih rfl, runWords_cons]

theorem nextAcc_of_decode_idle {w : InputWord} (a : Byte) (h : decode w = .idle) : nextAcc a w = a := by
  have hexec := exec_decode w { acc := a, pending := [], drawn := 0 }
  rw [h, exec_idle] at hexec
  exact (congrArg State.acc (Host.Outcome.next.inj hexec)).symm

/-- Words that each keep an accumulator keep it when they come in a row. -/
theorem runWords_eq_self {a : Byte} {ws : List InputWord} (h : ∀ w ∈ ws, nextAcc a w = a) : runWords a ws = a := by
  induction ws with
  | nil => rfl
  | cons w ws ih =>
    obtain ⟨hw, hws⟩ := List.forall_mem_cons.1 h
    rw [runWords_cons, hw, ih hws]

theorem runWords_idles {ws : List InputWord} (a : Byte) (h : ∀ w ∈ ws, decode w = .idle) : runWords a ws = a :=
  runWords_eq_self fun w hw => nextAcc_of_decode_idle a (h w hw)

/-- Pauses put in anywhere change no result (41_commands.md R72). -/
theorem runWords_insert_idles {idles : List InputWord} (a : Byte) (before after : List InputWord)
    (h : ∀ w ∈ idles, decode w = .idle) : runWords a (before ++ idles ++ after) = runWords a (before ++ after) := by
  rw [runWords_append, runWords_append, runWords_idles _ h, ← runWords_append]

/-- The IDLE words of a list may be taken out (70_reset_and_hazards.md R110). -/
theorem runWords_filter_ne_idle (a : Byte) (ws : List InputWord) :
    runWords a (ws.filter fun w => decide (decode w ≠ .idle)) = runWords a ws := by
  induction ws generalizing a with
  | nil => rfl
  | cons w ws ih =>
    by_cases hw : decode w = .idle
    · rw [List.filter_cons_of_neg (by simp [hw]), ih, runWords_cons, nextAcc_of_decode_idle a hw]
    · rw [List.filter_cons_of_pos (by simp [hw]), runWords_cons, ih, runWords_cons]

/-- Settles O11: by induction on the listed words, one step a word; and IDLE words keep every accumulator. -/
theorem runOverListedWordsIsTheFold : Obligations.RunOverListedWordsIsTheFold :=
  ⟨fun _ _ _ => runSteps_of_append, runWords_filter_ne_idle⟩

/-- RESET held for one or more cycles leaves what it leaves once (41_commands.md R71). -/
theorem runWords_of_rst {ws : List InputWord} (a : Byte) (hne : ws ≠ []) (h : ∀ w ∈ ws, rstBit w = true) :
    runWords a ws = 0x00#8 := by
  cases ws with
  | nil => exact absurd rfl hne
  | cons w ws =>
    obtain ⟨hw, hws⟩ := List.forall_mem_cons.1 h
    rw [runWords_cons, nextAcc_of_rst a hw]
    exact runWords_eq_self fun v hv => nextAcc_of_rst _ (hws v hv)

end Sys2Proof.Machine

/-! SUPPORT. The five commands one by one: what `exec` answers, what a step on any word of the command's row answers, and what
the command's value is on the datapath (41_commands.md R71 to R76). -/

namespace Sys2Proof.Machine

/-- Settles O18: the frame is the common form of the five answers. -/
theorem commandsChangeOnlyTheAccumulator : Obligations.CommandsChangeOnlyTheAccumulator :=
  exists_exec_eq

/-- Settles O13: a held RESET is a run of words that each give 0x00. -/
theorem resetClearsTheAccumulator : Obligations.ResetClearsTheAccumulator := by
  refine ⟨exec_reset, fun s w rest hr hp => ?_, fun s ws rest hne hr hp => ?_, fun s => ?_, rfl⟩
  · rw [step_of_cons hp, decode_of_rst hr, exec_reset]
  · rw [runSteps_of_append hp, runWords_of_rst s.acc hne hr]
  · rw [exec_reset, exec_init]

/-- Settles O14: an IDLE word's step only takes the word, and its `next` is the accumulator it finds. -/
theorem idleKeepsTheAccumulator : Obligations.IdleKeepsTheAccumulator := by
  refine ⟨exec_idle, fun s w rest hr hc hv hp => ?_, fun a before _ after => runWords_insert_idles a before after, rfl⟩
  rw [step_of_cons hp, decode_of_idle hr hc hv, exec_idle]

theorem crc_of_exec_init {s t : State} (h : exec .init s = .next t) : crc t = compute [] := by
  obtain rfl : { s with acc := 0x00#8 } = t := by simpa using h
  rfl

/-- Settles O15: INIT does not read `ACC`, so a second one changes nothing, and it leaves the empty message's checksum. -/
theorem initClearsTheAccumulator : Obligations.InitClearsTheAccumulator := by
  refine ⟨exec_init, fun s w rest hr hc hv hp => ?_,
    fun s t h => ⟨exec_twice_of_opensMessage rfl h, crc_of_exec_init h⟩, rfl⟩
  rw [step_of_cons hp, decode_of_init hr hc hv, exec_init]

theorem byteStep_zero_left (b : Byte) : byteStep 0x00#8 b = tStep b := by
  rw [byteStep_eq_tStep, BitVec.zero_xor]

theorem byteStep_zero_right (a : Byte) : byteStep a 0x00#8 = tStep a := by
  rw [byteStep_eq_tStep, BitVec.xor_zero]

/-- The eight sub-steps of R74, written out. -/
theorem byteStep_eq_bitStep_eight_times (a b : Byte) :
    byteStep a b = bitStep (bitStep (bitStep (bitStep (bitStep (bitStep (bitStep (bitStep (a ^^^ b)))))))) := by
  rw [byteStep_eq_tStep, tStep_eq_iterate]
  rfl

/-- 0x00 is the only byte that eight sub-steps leave as it is, found by evaluating the 256 bytes. -/
theorem eq_zero_of_tStep_eq_self {x : Byte} (h : tStep x = x) : x = 0x00#8 := by
  revert x
  decide +kernel

/-- A zero byte is not invisible once the accumulator is not 0x00 (41_commands.md R74). -/
theorem byteStep_zero_right_ne_self {a : Byte} (ha : a ≠ 0x00#8) : byteStep a 0x00#8 ≠ a := by
  rw [byteStep_zero_right]
  exact mt eq_zero_of_tStep_eq_self ha

/-- Settles O16: the answers are UPDATE's equation and its row, the values are those of the datapath's bijection `T`, and the
byte that shows UPDATE twice is one that moves the accumulator. -/
theorem updateAbsorbsTheByte : Obligations.UpdateAbsorbsTheByte := by
  refine ⟨fun s b => exec_update b s, fun s w rest hr hc hv hp => ?_, byteStep_eq_bitStep_eight_times,
    fun a b => (byteStep_eq_zero_iff a b).trans eq_comm, by decide, by decide,
    fun a => ⟨byteStep_zero_right a, byteStep_zero_right_ne_self⟩, ⟨0x00#8, exists_fold_twice_ne_fold_once 0x00#8⟩,
    fun _ => rfl⟩
  rw [step_of_cons hp, decode_of_update hr hc hv, exec_update, dinField]

theorem crc_of_exec_start {s t : State} {b : Byte} (h : exec (.start b) s = .next t) : crc t = compute [b] := by
  obtain rfl : { s with acc := byteStep 0x00#8 b } = t := by simpa using h
  rfl

/-- Settles O17: START does not read `ACC`, and UPDATE in the state INIT leaves finds the same 0x00. -/
theorem startBeginsWithTheByte : Obligations.StartBeginsWithTheByte := by
  refine ⟨fun s b => exec_start b s, fun s w rest hr hc hv hp => ?_, fun s b => ⟨_, exec_init s, ?_⟩,
    fun s t b h => ⟨exec_twice_of_opensMessage rfl h, crc_of_exec_start h⟩, byteStep_zero_left, by decide, by decide,
    by decide, fun _ => rfl⟩
  · rw [step_of_cons hp, decode_of_start hr hc hv, exec_start, dinField]
  · rw [exec_start, exec_update]

end Sys2Proof.Machine

/-! SUPPORT. The checksum of a byte sequence: pieces chain, the accumulator before a message can be told from the one after it,
and what the zero byte and the checksum itself do (42_compute.md R82, R84, R86, R87, R89). -/

namespace Sys2Proof.Machine

@[simp] theorem compute_nil : compute [] = 0x00#8 := rfl

theorem compute_singleton (b : Byte) : compute [b] = byteStep 0x00#8 b := rfl

theorem fold_append (a : Byte) (xs ys : List Byte) : fold a (xs ++ ys) = fold (fold a xs) ys := by
  induction xs generalizing a with
  | nil => rfl
  | cons x xs ih => exact ih (byteStep a x)

theorem compute_append (xs ys : List Byte) : compute (xs ++ ys) = fold (compute xs) ys :=
  fold_append Config.initAcc xs ys

/-- Different accumulators stay different, each byte being a bijection of them (42_compute.md R83). -/
theorem fold_injective (bytes : List Byte) : Function.Injective fun a => fold a bytes := by
  induction bytes with
  | nil => exact Function.injective_id
  | cons b bytes ih => exact ih.comp (byteStep_bijective_of_byte b).injective

/-- Settles O29: INIT and RESET answer by their equations, and the empty fold is its start. -/
theorem emptyMessageIsZero : Obligations.EmptyMessageIsZero :=
  ⟨compute_nil, fun s => ⟨_, exec_init s, rfl⟩, fun s => ⟨_, exec_reset s, rfl⟩⟩

/-- Settles O32: one byte absorbed from 0x00 is `T` of it; the three values are evaluated. -/
theorem singleByteMessages : Obligations.SingleByteMessages :=
  ⟨fun b => ⟨compute_singleton b, byteStep_zero_left b⟩, by decide, by decide, by decide⟩

/-- Settles O33: both conjuncts are closed, the codes read character by character and the fold evaluated on the 36 bytes. -/
theorem demonstrationString : Obligations.DemonstrationString :=
  ⟨rfl, by decide +kernel⟩

/-! ### Zero bytes and the appended checksum -/

/-- A zero byte before a message is not seen: it finds 0x00 and leaves 0x00. -/
theorem compute_zero_cons (bytes : List Byte) : compute (0x00#8 :: bytes) = compute bytes := by
  have hzero : byteStep 0x00#8 0x00#8 = 0x00#8 := (byteStep_eq_zero_iff _ _).2 rfl
  exact congrArg (fold · bytes) hzero

theorem compute_replicate_zero_append (n : Nat) (bytes : List Byte) :
    compute (List.replicate n 0x00#8 ++ bytes) = compute bytes := by
  induction n with
  | zero => rfl
  | succ n ih => rw [List.replicate_succ, List.cons_append, compute_zero_cons, ih]

theorem compute_replicate_zero (n : Nat) : compute (List.replicate n 0x00#8) = 0x00#8 := by
  simpa using compute_replicate_zero_append n []

/-- The byte that equals the accumulator brings it to 0x00. -/
theorem compute_append_compute (bytes : List Byte) : compute (bytes ++ [compute bytes]) = 0x00#8 := by
  rw [compute_append, fold_cons, fold_nil, (byteStep_eq_zero_iff _ _).2 rfl]

/-- Settles O34: by induction on the number of zero bytes, and the checksum is the byte that equals the accumulator. -/
theorem leadingZerosAndAppendedChecksum : Obligations.LeadingZerosAndAppendedChecksum :=
  ⟨compute_zero_cons, compute_replicate_zero_append, compute_replicate_zero, compute_append_compute⟩

/-! ### The order of two bytes -/

theorem tStep_eq_self_iff {x : Byte} : tStep x = x ↔ x = 0x00#8 := by
  refine ⟨eq_zero_of_tStep_eq_self, ?_⟩
  rintro rfl
  exact tStep_zero

/-- The two inner operands of an XOR equation may change sides. -/
theorem xor_eq_xor_iff_swap {p q u v : Byte} : p ^^^ q = u ^^^ v ↔ p ^^^ u = q ^^^ v := by
  have hsum : p ^^^ q ^^^ (u ^^^ v) = p ^^^ u ^^^ (q ^^^ v) := by ac_rfl
  rw [← BitVec.xor_eq_zero_iff, hsum, BitVec.xor_eq_zero_iff]

/-- `T` has no fixed point but 0x00, and by linearity the XOR of two bytes with one value would be one (42_compute.md R84). -/
theorem tStep_xor_self_injective : Function.Injective fun x : Byte => tStep x ^^^ x := by
  intro x y (h : tStep x ^^^ x = tStep y ^^^ y)
  have hfixed : tStep (x ^^^ y) = x ^^^ y := (tStep_xor x y).trans (xor_eq_xor_iff_swap.1 h)
  exact BitVec.xor_eq_zero_iff.1 (tStep_eq_self_iff.1 hfixed)

theorem compute_pair (a b : Byte) : compute [a, b] = tStep (tStep a ^^^ b) := by
  rw [← byteStep_eq_tStep, ← byteStep_zero_left]
  rfl

/-- Two bytes may change places only when they are equal (42_compute.md R84). -/
theorem compute_pair_comm_iff (a b : Byte) : compute [a, b] = compute [b, a] ↔ a = b := by
  calc compute [a, b] = compute [b, a]
      ↔ tStep a ^^^ b = tStep b ^^^ a := by rw [compute_pair, compute_pair, tStep_injective.eq_iff]
    _ ↔ tStep a ^^^ a = tStep b ^^^ b := by
      rw [xor_eq_xor_iff_swap, BitVec.xor_comm b a, ← xor_eq_xor_iff_swap]
    _ ↔ a = b := tStep_xor_self_injective.eq_iff

/-- Settles O31: the two orders agree only where `x -> T(x) ^ x` does; the pairs are evaluated. -/
theorem checksumDependsOnTheOrder : Obligations.ChecksumDependsOnTheOrder :=
  ⟨compute_pair_comm_iff, tStep_xor_self_injective, by decide +kernel⟩

end Sys2Proof.Machine

/-! SUPPORT. The words that absorb bytes and the words that carry a message (42_compute.md R81; 70_reset_and_hazards.md R103,
R111): what their first word may be, where IDLE words may stand, how they join, and where they may be cut. -/

namespace Sys2Proof.Machine

/-- Words that absorb bytes go on with IDLE or with UPDATE of the first of them. -/
theorem absorbedBytes_cons_eq_some_iff {w : InputWord} {ws : List InputWord} {bytes : List Byte} :
    absorbedBytes (w :: ws) = some bytes
      ↔ (decode w = .idle ∧ absorbedBytes ws = some bytes)
        ∨ ∃ b bs, decode w = .update b ∧ absorbedBytes ws = some bs ∧ b :: bs = bytes := by
  rw [absorbedBytes]
  cases decode w <;> simp

/-- Words that carry a message begin with IDLE, with RESET or INIT, or with START of the first byte. -/
theorem carriedMessage_cons_eq_some_iff {w : InputWord} {ws : List InputWord} {bytes : List Byte} :
    carriedMessage (w :: ws) = some bytes
      ↔ (decode w = .idle ∧ carriedMessage ws = some bytes)
        ∨ ((decode w = .reset ∨ decode w = .init) ∧ absorbedBytes ws = some bytes)
        ∨ ∃ b bs, decode w = .start b ∧ absorbedBytes ws = some bs ∧ b :: bs = bytes := by
  rw [carriedMessage]
  cases decode w <;> simp

/-! ### The message sequences of R81 carry their message -/

theorem absorbedBytes_updates (bytes : List Byte) : absorbedBytes (wordsOf (bytes.map .update)) = some bytes := by
  induction bytes with
  | nil => rfl
  | cons b bytes ih =>
    exact absorbedBytes_cons_eq_some_iff.2 (.inr ⟨b, bytes, decode_encode _, ih, rfl⟩)

theorem carriedMessage_messageAfter {opening : Instr} (h : opening = .reset ∨ opening = .init) (bytes : List Byte) :
    carriedMessage (wordsOf (messageAfter opening bytes)) = some bytes := by
  refine carriedMessage_cons_eq_some_iff.2 (.inr (.inl ⟨?_, absorbedBytes_updates bytes⟩))
  rwa [decode_encode]

theorem carriedMessage_messageWords (bytes : List Byte) : carriedMessage (messageWords bytes) = some bytes := by
  cases bytes with
  | nil => exact carriedMessage_messageAfter (.inr rfl) []
  | cons b bytes =>
    exact carriedMessage_cons_eq_some_iff.2
      (.inr (.inr ⟨b, bytes, decode_encode _, absorbedBytes_updates bytes, rfl⟩))

/-! ### IDLE words -/

theorem absorbedBytes_insert_idles {idles : List InputWord} (h : ∀ w ∈ idles, decode w = .idle)
    (ws ws' : List InputWord) : absorbedBytes (ws ++ idles ++ ws') = absorbedBytes (ws ++ ws') := by
  induction ws with
  | nil =>
    induction idles with
    | nil => rfl
    | cons v idles ih =>
      obtain ⟨hv, hidles⟩ := List.forall_mem_cons.1 h
      simpa [absorbedBytes, hv] using ih hidles
  | cons w ws ih => simp only [List.cons_append, absorbedBytes, ih]

theorem carriedMessage_insert_idles {idles : List InputWord} (h : ∀ w ∈ idles, decode w = .idle)
    (ws ws' : List InputWord) : carriedMessage (ws ++ idles ++ ws') = carriedMessage (ws ++ ws') := by
  induction ws with
  | nil =>
    induction idles with
    | nil => rfl
    | cons v idles ih =>
      obtain ⟨hv, hidles⟩ := List.forall_mem_cons.1 h
      simpa [carriedMessage, hv] using ih hidles
  | cons w ws ih => simp only [List.cons_append, carriedMessage, absorbedBytes_insert_idles h, ih]

/-- IDLE words after a message belong to it (42_compute.md R85). -/
theorem carriedMessage_append_idles {idles : List InputWord} (h : ∀ w ∈ idles, decode w = .idle)
    (m : List InputWord) : carriedMessage (m ++ idles) = carriedMessage m := by
  simpa using carriedMessage_insert_idles h m []

/-! ### Joining and cutting -/

theorem absorbedBytes_append {first more : List InputWord} {xs ys : List Byte} (hfirst : absorbedBytes first = some xs)
    (hmore : absorbedBytes more = some ys) : absorbedBytes (first ++ more) = some (xs ++ ys) := by
  induction first generalizing xs with
  | nil =>
    cases hfirst
    exact hmore
  | cons w ws ih =>
    rw [List.cons_append, absorbedBytes_cons_eq_some_iff]
    obtain ⟨hw, hws⟩ | ⟨b, bs, hw, hws, rfl⟩ := absorbedBytes_cons_eq_some_iff.1 hfirst
    · exact .inl ⟨hw, ih hws⟩
    · exact .inr ⟨b, bs ++ ys, hw, ih hws, rfl⟩

/-- Words that absorb further bytes continue the message before them. -/
theorem carriedMessage_append {first more : List InputWord} {xs ys : List Byte} (hfirst : carriedMessage first = some xs)
    (hmore : absorbedBytes more = some ys) : carriedMessage (first ++ more) = some (xs ++ ys) := by
  induction first with
  | nil => cases hfirst
  | cons w ws ih =>
    rw [List.cons_append, carriedMessage_cons_eq_some_iff]
    obtain ⟨hw, hws⟩ | ⟨hw, hws⟩ | ⟨b, bs, hw, hws, rfl⟩ := carriedMessage_cons_eq_some_iff.1 hfirst
    · exact .inl ⟨hw, ih hws⟩
    · exact .inr (.inl ⟨hw, absorbedBytes_append hws hmore⟩)
    · exact .inr (.inr ⟨b, bs ++ ys, hw, absorbedBytes_append hws hmore, rfl⟩)

/-- Words that absorb two pieces in a row can be cut between them. -/
theorem exists_split_of_absorbedBytes {ws : List InputWord} {xs ys : List Byte} (h : absorbedBytes ws = some (xs ++ ys)) :
    ∃ first more, ws = first ++ more ∧ absorbedBytes first = some xs ∧ absorbedBytes more = some ys := by
  induction ws generalizing xs with
  | nil =>
    obtain ⟨rfl, rfl⟩ := List.append_eq_nil_iff.1 (Option.some.inj h).symm
    exact ⟨[], [], rfl, rfl, rfl⟩
  | cons w ws ih =>
    cases xs with
    | nil => exact ⟨[], w :: ws, rfl, rfl, h⟩
    | cons x xs =>
      obtain ⟨hw, hws⟩ | ⟨b, bs, hw, hws, heq⟩ := absorbedBytes_cons_eq_some_iff.1 h
      · obtain ⟨first, more, rfl, hfirst, hmore⟩ := ih hws
        exact ⟨w :: first, more, rfl, absorbedBytes_cons_eq_some_iff.2 (.inl ⟨hw, hfirst⟩), hmore⟩
      · cases heq
        obtain ⟨first, more, rfl, hfirst, hmore⟩ := ih hws
        exact ⟨w :: first, more, rfl, absorbedBytes_cons_eq_some_iff.2 (.inr ⟨_, _, hw, hfirst, rfl⟩), hmore⟩

/-- A carried message can be cut after any byte of it; START carries its first byte, so not before that one. -/
theorem exists_split_of_carriedMessage {m : List InputWord} {xs ys : List Byte} (hne : xs ≠ [])
    (h : carriedMessage m = some (xs ++ ys)) :
    ∃ first more, m = first ++ more ∧ carriedMessage first = some xs ∧ absorbedBytes more = some ys := by
  induction m with
  | nil => cases h
  | cons w ws ih =>
    obtain ⟨hw, hws⟩ | ⟨hw, hws⟩ | ⟨b, bs, hw, hws, heq⟩ := carriedMessage_cons_eq_some_iff.1 h
    · obtain ⟨first, more, rfl, hfirst, hmore⟩ := ih hws
      exact ⟨w :: first, more, rfl, carriedMessage_cons_eq_some_iff.2 (.inl ⟨hw, hfirst⟩), hmore⟩
    · obtain ⟨first, more, rfl, hfirst, hmore⟩ := exists_split_of_absorbedBytes hws
      exact ⟨w :: first, more, rfl, carriedMessage_cons_eq_some_iff.2 (.inr (.inl ⟨hw, hfirst⟩)), hmore⟩
    · obtain ⟨x, xs, rfl⟩ := List.exists_cons_of_ne_nil hne
      cases heq
      obtain ⟨first, more, rfl, hfirst, hmore⟩ := exists_split_of_absorbedBytes hws
      exact ⟨w :: first, more, rfl, carriedMessage_cons_eq_some_iff.2 (.inr (.inr ⟨_, _, hw, hfirst, rfl⟩)), hmore⟩

end Sys2Proof.Machine

/-! SUPPORT. What the accumulator holds after words that absorb bytes and after words that carry a message, whatever it held
before (42_compute.md R81, R83, R85, R86). -/

namespace Sys2Proof.Machine

/-- `next` sees of a word its command alone. -/
theorem nextAcc_of_decode {w : InputWord} {i : Instr} (a : Byte) (h : decode w = i) :
    nextAcc a w = nextAcc a (encode i) := by
  have hexec : exec (decode w) { acc := a, pending := [], drawn := 0 }
      = exec (decode (encode i)) { acc := a, pending := [], drawn := 0 } := by rw [h, decode_encode]
  rw [exec_decode, exec_decode] at hexec
  exact congrArg State.acc (Host.Outcome.next.inj hexec)

theorem nextAcc_encode_reset (a : Byte) : nextAcc a (encode .reset) = 0x00#8 := by
  simp [nextAcc, encode_reset]

/-- UPDATEs, with any pauses, fold their bytes onto what the accumulator holds. -/
theorem runWords_of_absorbedBytes {ws : List InputWord} {bytes : List Byte} (a : Byte)
    (h : absorbedBytes ws = some bytes) : runWords a ws = fold a bytes := by
  induction ws generalizing a bytes with
  | nil =>
    cases h
    rfl
  | cons w ws ih =>
    obtain ⟨hw, hws⟩ | ⟨b, bs, hw, hws, rfl⟩ := absorbedBytes_cons_eq_some_iff.1 h
    · rw [runWords_cons, nextAcc_of_decode_idle a hw, ih a hws]
    · rw [runWords_cons, nextAcc_of_decode a hw, nextAcc_encode_update, ih _ hws, fold_cons]

/-- The opening command overwrites the accumulator without reading it, and the bytes are folded onto what it writes. -/
theorem runWords_of_carriedMessage {m : List InputWord} {bytes : List Byte} (a : Byte)
    (h : carriedMessage m = some bytes) : runWords a m = compute bytes := by
  induction m with
  | nil => cases h
  | cons w ws ih =>
    rw [runWords_cons]
    obtain ⟨hw, hws⟩ | ⟨hw | hw, hws⟩ | ⟨b, bs, hw, hws, rfl⟩ := carriedMessage_cons_eq_some_iff.1 h
    · rw [nextAcc_of_decode_idle a hw, ih hws]
    · rw [nextAcc_of_decode a hw, nextAcc_encode_reset]
      exact runWords_of_absorbedBytes _ hws
    · rw [nextAcc_of_decode a hw, nextAcc_encode_init]
      exact runWords_of_absorbedBytes _ hws
    · rw [nextAcc_of_decode a hw, nextAcc_encode_start]
      exact runWords_of_absorbedBytes _ hws

/-- From every state, as many steps as words carry the message leave its checksum, and only those words are taken. -/
theorem runSteps_of_carriedMessage {s : State} {m rest : List InputWord} {bytes : List Byte}
    (hm : carriedMessage m = some bytes) (hp : s.pending = m ++ rest) :
    runSteps m.length s = .next { s with acc := compute bytes, pending := rest } := by
  rw [runSteps_of_append hp, runWords_of_carriedMessage s.acc hm]

/-- The same after any words at all: the message does not find out what they were. -/
theorem runSteps_of_carriedMessage_after {s : State} {before m rest : List InputWord} {bytes : List Byte}
    (hm : carriedMessage m = some bytes) (hp : s.pending = before ++ m ++ rest) :
    runSteps (before.length + m.length) s = .next { s with acc := compute bytes, pending := rest } := by
  rw [List.append_assoc] at hp
  rw [runSteps_add_of_next _ _ (runSteps_of_append hp), runSteps_of_carriedMessage hm rfl]

/-- Settles O27: the sequences of R81 carry their message, IDLE words are skipped in it, and the run over any words that carry
it ends in its checksum. -/
theorem messageRunComputesTheChecksum : Obligations.MessageRunComputesTheChecksum :=
  ⟨fun bytes => ⟨carriedMessage_messageWords bytes, carriedMessage_messageAfter (.inr rfl) bytes,
      carriedMessage_messageAfter (.inl rfl) bytes⟩,
    fun ws _ ws' hidles => carriedMessage_insert_idles hidles ws ws',
    fun _ _ _ _ _ => runSteps_of_carriedMessage_after⟩

/-- Settles O28: the message with the first `k` of its IDLE words after it is again words that carry it. -/
theorem resultStaysWhileIdle : Obligations.ResultStaysWhileIdle := by
  intro s m idles rest bytes k hm hidles hk hp
  have hcarried : carriedMessage (m ++ idles.take k) = some bytes := by
    rw [carriedMessage_append_idles fun w hw => hidles w (List.mem_of_mem_take hw), hm]
  have hlength : (m ++ idles.take k).length = m.length + k := by
    rw [List.length_append, List.length_take_of_le hk]
  have hpending : s.pending = m ++ idles.take k ++ (idles.drop k ++ rest) := by
    rw [hp, List.append_assoc, List.append_assoc, ← List.append_assoc (idles.take k), List.take_append_drop]
  rw [← hlength]
  exact ⟨_, runSteps_of_carriedMessage hcarried hpending, rfl⟩

/-- Settles O30: both runs end in the message's checksum; without an opening command the run is a fold, which keeps different
accumulators apart. -/
theorem noMemoryOfEarlierMessages : Obligations.NoMemoryOfEarlierMessages := by
  refine ⟨fun s s' before before' m rest rest' bytes hm hp hp' => ?_, fun a a' bytes hne => ?_⟩
  · exact ⟨_, _, runSteps_of_carriedMessage_after hm hp, runSteps_of_carriedMessage_after hm hp', rfl⟩
  · have hrun (c : Byte) : runWords c (wordsOf (bytes.map .update)) = fold c bytes :=
      runWords_of_absorbedBytes c (absorbedBytes_updates bytes)
    rw [hrun, hrun]
    exact (fold_injective bytes).ne hne

/-- Settles O43: the listed words, the IDLE words among them, carry the message, so their run ends in its checksum. -/
theorem messagesBeginOnCourse : Obligations.MessagesBeginOnCourse := by
  intro s m idles bytes hm hidles hp
  refine ⟨le_rfl, fun _ => ?_⟩
  rw [hp]
  exact runWords_of_carriedMessage s.acc ((carriedMessage_append_idles hidles m).trans hm)

/-! ### The streaming law -/

/-- A non-empty message's words go on with UPDATEs alone. -/
theorem messageWords_append {xs : List Byte} (hne : xs ≠ []) (ys : List Byte) :
    messageWords (xs ++ ys) = messageWords xs ++ wordsOf (ys.map .update) := by
  cases xs with
  | nil => exact absurd rfl hne
  | cons x xs => simp [messageWords_cons, wordsOf]

theorem length_messageWords {xs : List Byte} (hne : xs ≠ []) : (messageWords xs).length = xs.length := by
  cases xs with
  | nil => exact absurd rfl hne
  | cons x xs => simp [messageWords_cons]

/-- After the first words of a message `crc` shows the checksum of the bytes so far (42_compute.md R86). -/
theorem crc_after_first_bytes {s : State} {xs ys : List Byte} {rest : List InputWord} (hne : xs ≠ [])
    (hp : s.pending = messageWords (xs ++ ys) ++ rest) : ∃ t, runSteps xs.length s = .next t ∧ crc t = compute xs := by
  rw [messageWords_append hne, List.append_assoc] at hp
  rw [← length_messageWords hne]
  exact ⟨_, runSteps_of_carriedMessage (carriedMessage_messageWords xs) hp, rfl⟩

/-- Words that carry one piece and words that absorb another, each at its own pace, carry the two together. -/
theorem crc_after_pieces {s : State} {first more rest : List InputWord} {xs ys : List Byte}
    (hfirst : carriedMessage first = some xs) (hmore : absorbedBytes more = some ys)
    (hp : s.pending = first ++ more ++ rest) :
    ∃ t, runSteps (first.length + more.length) s = .next t ∧ crc t = compute (xs ++ ys) := by
  rw [← List.length_append]
  exact ⟨_, runSteps_of_carriedMessage (carriedMessage_append hfirst hmore) hp, rfl⟩

/-- Settles O26: the fold law on byte sequences, the cutting and joining of the words that carry them, and the run over words
that carry a message. -/
theorem streamingLaw : Obligations.StreamingLaw := by
  have htake {bytes : List Byte} {k : Nat} (hpos : 1 ≤ k) (hk : k ≤ bytes.length) : bytes.take k ≠ [] :=
    List.ne_nil_of_length_pos (by rwa [List.length_take_of_le hk])
  refine ⟨fold_append, compute_append, fun s bytes rest k hpos hk hp => ?_, fun m bytes k hm hpos hk => ?_,
    fun s first more rest xs ys hfirst hmore hp => ⟨carriedMessage_append hfirst hmore, ?_,
      crc_after_pieces hfirst hmore hp⟩, fun s xs ys rest hp => ?_⟩
  · rw [← List.take_append_drop k bytes] at hp
    simpa [List.length_take_of_le hk] using crc_after_first_bytes (htake hpos hk) hp
  · rw [← List.take_append_drop k bytes] at hm
    exact exists_split_of_carriedMessage (htake hpos hk) hm
  · rw [List.append_assoc] at hp
    exact ⟨_, runSteps_of_carriedMessage hfirst hp, rfl⟩
  · simpa [wordsOf] using crc_after_pieces (carriedMessage_messageWords xs) (absorbedBytes_updates ys) hp

end Sys2Proof.Machine

/-! SUPPORT. The range check on a whole sequence: when it reports an error, what the bytes before the first invalid element are,
and the outcome of `compute_checked` either way (60_exceptions.md R90 to R92, R96). -/

namespace Sys2Proof.Machine

/-- The values of bytes are the integers in range. -/
theorem exists_toNat_eq_iff (v : Int) : (∃ b : Byte, (b.toNat : Int) = v) ↔ 0 ≤ v ∧ v ≤ 255 := by
  constructor
  · rintro ⟨b, rfl⟩
    exact (inByteRange_iff _).1 (inByteRange_toNat b)
  · intro hv
    exact ⟨byteOfInt v, toNat_byteOfInt ((inByteRange_iff v).2 hv)⟩

/-- Settles O46: the integers in range are the values of bytes, and UPDATE and START answer by their equations. -/
theorem portTakesExactlyTheBytes : Obligations.PortTakesExactlyTheBytes :=
  ⟨exists_toNat_eq_iff, fun b s => ⟨⟨_, exec_update b s⟩, _, exec_start b s⟩⟩

theorem firstInvalid_zero_eq_some_iff {vs : List Int} {i : Nat} {v : Int} :
    firstInvalid 0 vs = some { index := i, value := v } ↔ IsFirstInvalid vs i v := by
  rw [← firstInvalid_eq_some_iff (k := 0), Nat.zero_add]

/-- The check reports an error exactly when some element is out of range (60_exceptions.md R92). -/
theorem exists_firstInvalid_iff {vs : List Int} : (∃ e, firstInvalid 0 vs = some e) ↔ ∃ v ∈ vs, v < 0 ∨ 255 < v := by
  constructor
  · rintro ⟨⟨i, v⟩, he⟩
    obtain ⟨hget, hout, -⟩ := firstInvalid_zero_eq_some_iff.1 he
    exact ⟨v, List.mem_of_getElem? hget, hout⟩
  · rintro ⟨v, hmem, hv⟩
    exact exists_firstInvalid_of_mem hmem hv

/-- The valid beginning holds the elements before the first invalid one, by their values: none is cut, masked or replaced. -/
theorem map_toNat_validPrefix (vs : List Int) :
    (validPrefix vs).map (fun b => (b.toNat : Int)) = vs.takeWhile inByteRange := by
  induction vs with
  | nil => rfl
  | cons v vs ih =>
    cases hv : inByteRange v with
    | true => simp [validPrefix, hv, toNat_byteOfInt hv, ih]
    | false => simp [validPrefix, hv]

theorem validPrefix_cons_invalid {v : Int} (h : inByteRange v = false) (vs : List Int) : validPrefix (v :: vs) = [] := by
  simp [validPrefix, h]

/-- With nothing to report, the valid beginning is the whole sequence. -/
theorem map_toNat_validPrefix_of_valid {k : Nat} {vs : List Int} (h : firstInvalid k vs = none) :
    (validPrefix vs).map (fun b => (b.toNat : Int)) = vs := by
  have hall : ∀ v ∈ vs, inByteRange v = true := fun v hmem => by
    by_contra hv
    obtain ⟨e, he⟩ : ∃ e, firstInvalid k vs = some e :=
      exists_firstInvalid_of_mem hmem (inByteRange_eq_false_iff.1 (Bool.eq_false_iff.2 hv))
    rw [h] at he
    cases he
  rw [map_toNat_validPrefix, List.takeWhile_eq_self_iff.2 hall]

theorem computeChecked_eq_error_iff {vs : List Int} {e : InvalidByteValue} :
    computeChecked vs = .error e ↔ firstInvalid 0 vs = some e := by
  rw [computeChecked_eq]
  cases firstInvalid 0 vs <;> simp

/-- `compute_checked` gives a checksum exactly for sequences of bytes, and it is `compute` of them (60_exceptions.md R92). -/
theorem computeChecked_eq_ok_iff {vs : List Int} {c : Byte} :
    computeChecked vs = .ok c ↔ ∃ bytes : List Byte, vs = bytes.map (fun b => (b.toNat : Int)) ∧ c = compute bytes := by
  constructor
  · intro h
    rw [computeChecked_eq] at h
    cases hvalid : firstInvalid 0 vs with
    | some e => simp [hvalid] at h
    | none =>
      have hc : compute (validPrefix vs) = c := by simpa [hvalid] using h
      exact ⟨validPrefix vs, (map_toNat_validPrefix_of_valid hvalid).symm, hc.symm⟩
  · rintro ⟨bytes, rfl, rfl⟩
    rw [computeChecked_eq, firstInvalid_bytes, validPrefix_bytes]

/-! ### What a wrapper drives (60_exceptions.md R93) -/

theorem issueAfterCheck_of_invalid {vs : List Int} (h : ∃ v ∈ vs, v < 0 ∨ 255 < v) : issueAfterCheck vs = [] := by
  obtain ⟨e, he⟩ := exists_firstInvalid_iff.2 h
  simp [issueAfterCheck, checkedBytes_of_invalid he]

theorem issueAfterCheck_of_valid {vs : List Int} (h : firstInvalid 0 vs = none) :
    issueAfterCheck vs = messageWords (validPrefix vs) := by
  simp [issueAfterCheck, checkedBytes_of_valid h]

/-- A message's words are INIT alone for the empty message, and else START and UPDATEs of its bytes. -/
theorem decode_of_mem_messageWords {bytes : List Byte} {w : InputWord} (hw : w ∈ messageWords bytes) :
    (bytes = [] ∧ decode w = .init) ∨ ∃ b ∈ bytes, decode w = .start b ∨ decode w = .update b := by
  cases bytes with
  | nil =>
    obtain rfl : w = encode .init := List.mem_singleton.1 hw
    exact .inl ⟨rfl, decode_encode _⟩
  | cons b bs =>
    rw [messageWords_cons] at hw
    obtain rfl | hw := List.mem_cons.1 hw
    · exact .inr ⟨b, List.mem_cons_self, .inl (decode_encode _)⟩
    · obtain ⟨x, hx, rfl⟩ := List.mem_map.1 hw
      exact .inr ⟨x, List.mem_cons_of_mem b hx, .inr (decode_encode _)⟩

/-- Settles O44: the outcome is decided by the first invalid element, and a wrapper's words are those of the message of the
elements before it. -/
theorem computeCheckedRejectsNonBytes : Obligations.ComputeCheckedRejectsNonBytes := by
  refine ⟨fun vs i v => ?_, fun vs c => computeChecked_eq_ok_iff, fun vs => ?_, fun vs => issueAfterCheck_of_invalid,
    fun vs w hw => ?_⟩
  · exact computeChecked_eq_error_iff.trans firstInvalid_zero_eq_some_iff
  · simp only [computeChecked_eq_error_iff]
    exact exists_firstInvalid_iff
  · rw [← map_toNat_validPrefix]
    obtain ⟨hnil, hinit⟩ | ⟨b, hb, hcmd⟩ := decode_of_mem_messageWords hw
    · exact .inl ⟨by rw [hnil, List.map_nil], hinit⟩
    · exact .inr ⟨b, List.mem_map_of_mem hb, hcmd⟩

/-! ### What a call through a wrapper leaves and answers (60_exceptions.md R93; 93_implementation_defined.md U5) -/

theorem wrapperCall_fst (issued : List Int → List InputWord) (a : Byte) (vs : List Int) :
    (wrapperCall issued a vs).1 = runWords a (issued vs) := by
  unfold wrapperCall
  cases firstInvalid 0 vs <;> rfl

/-- A wrapper need drive the right message for valid sequences only: an error is the outcome whatever it drove. -/
theorem wrapperCall_snd {issued : List Int → List InputWord} {a : Byte} {vs : List Int}
    (h : firstInvalid 0 vs = none → runWords a (issued vs) = compute (validPrefix vs)) :
    (wrapperCall issued a vs).2 = computeChecked vs := by
  rw [computeChecked_eq, wrapperCall]
  cases hvalid : firstInvalid 0 vs with
  | none => exact congrArg Except.ok (h hvalid)
  | some e => rfl

theorem wrapperCall_snd_of_afterCheck (a : Byte) (vs : List Int) :
    (wrapperCall issueAfterCheck a vs).2 = computeChecked vs :=
  wrapperCall_snd fun hvalid => by
    rw [issueAfterCheck_of_valid hvalid]
    exact runWords_of_carriedMessage a (carriedMessage_messageWords _)

/-- A wrapper that drives any words carrying the valid beginning leaves its checksum (42_compute.md R82). -/
theorem wrapperCall_of_carriedMessage {issued : List Int → List InputWord} {vs : List Int} (a : Byte)
    (h : carriedMessage (issued vs) = some (validPrefix vs)) :
    wrapperCall issued a vs = (compute (validPrefix vs), computeChecked vs) := by
  have hleft : runWords a (issued vs) = compute (validPrefix vs) := runWords_of_carriedMessage a h
  exact Prod.ext ((wrapperCall_fst issued a vs).trans hleft) (wrapperCall_snd fun _ => hleft)

theorem wrapperCall_asRead (a : Byte) (vs : List Int) :
    wrapperCall issueAsRead a vs = (compute (validPrefix vs), computeChecked vs) :=
  wrapperCall_of_carriedMessage a (carriedMessage_messageWords _)

/-- Settles O45: as read, the words carry the valid beginning, so they leave its checksum; after a check, they are those of the
whole message or none. -/
theorem wrapperOrdersHaveOneOutcome : Obligations.WrapperOrdersHaveOneOutcome := by
  refine ⟨fun a vs => ⟨wrapperCall_snd_of_afterCheck a vs, by rw [wrapperCall_asRead]⟩, fun _ => rfl,
    map_toNat_validPrefix, fun a vs => by rw [wrapperCall_asRead], fun a vs m hm => wrapperCall_of_carriedMessage a hm,
    fun a v more hv => ?_, fun a vs hv => ?_⟩
  · have hout : inByteRange v = false := inByteRange_eq_false_iff.2 hv
    have hprefix : validPrefix (v :: more) = [] := validPrefix_cons_invalid hout more
    have herror : computeChecked (v :: more) = .error { index := 0, value := v } :=
      computeChecked_eq_error_iff.2 (firstInvalid_cons_invalid hout 0 more)
    refine ⟨?_, by rw [wrapperCall_asRead, hprefix, herror, compute_nil]⟩
    rw [issueAsRead, hprefix]
    rfl
  · rw [wrapperCall_fst, issueAfterCheck_of_invalid hv, runWords_nil]

end Sys2Proof.Machine

/-! SUPPORT. Messages from reset, without an opening command and with a held `vld`, and the cycles a message takes
(70_reset_and_hazards.md R101, R103, R104, R106, R109): a run of UPDATE words folds their bytes onto what the accumulator holds,
and a run of words that carry a message takes one cycle a word. -/

namespace Sys2Proof.Machine

/-! ### UPDATE words in a row -/

theorem length_updates (bytes : List Byte) : (wordsOf (bytes.map .update)).length = bytes.length := by
  simp [wordsOf]

/-- From every state, one step a byte: the bytes are folded onto what `ACC` holds, and only their words are taken. -/
theorem runSteps_of_updates {s : State} {bytes : List Byte} {rest : List InputWord}
    (hp : s.pending = wordsOf (bytes.map .update) ++ rest) :
    runSteps bytes.length s = .next { s with acc := fold s.acc bytes, pending := rest } := by
  rw [← length_updates bytes, runSteps_of_append hp, runWords_of_absorbedBytes s.acc (absorbedBytes_updates bytes)]

/-- RESET leaves the accumulator of the reset state (70_reset_and_hazards.md R101). -/
theorem acc_of_exec_reset {s t : State} (h : exec .reset s = .next t) : t.acc = State.reset.acc := by
  obtain rfl : { s with acc := 0x00#8 } = t := by simpa using h
  rfl

/-- Settles O35: at reset the accumulator is the 0x00 from which `compute` folds, so the UPDATE words need no opening. -/
theorem resetStateBeginsAMessage : Obligations.ResetStateBeginsAMessage :=
  ⟨reset_acc, crc_eq State.reset, fun _ _ => acc_of_exec_reset, fun _ _ => runSteps_of_updates rfl⟩

/-- A message and UPDATE words after it carry one longer message (70_reset_and_hazards.md R103). -/
theorem runWords_message_then_updates (a : Byte) (xs ys : List Byte) :
    runWords a (messageWords xs ++ wordsOf (ys.map .update)) = compute (xs ++ ys) :=
  runWords_of_carriedMessage a (carriedMessage_append (carriedMessage_messageWords xs) (absorbedBytes_updates ys))

/-- Settles O37: the words of both messages carry their concatenation; the worked case is evaluated. -/
theorem missingOpeningFoldsOnto : Obligations.MissingOpeningFoldsOnto :=
  ⟨fun xs ys a => ⟨runWords_message_then_updates a xs ys, compute_append xs ys⟩,
    by decide, by decide, by decide, by decide, by decide⟩

/-- The ports with `vld` held at 1 over an unchanged byte are UPDATE words of that byte, one a cycle. -/
theorem replicate_held_valid (n : Nat) (b : Byte) :
    List.replicate n (portsWord false false true b) = wordsOf ((List.replicate n b).map .update) := by
  rw [List.map_replicate, wordsOf_replicate, encode_update]

/-- Settles O39: the held words are UPDATE words, and each takes one step. -/
theorem heldValidAbsorbsInEveryCycle : Obligations.HeldValidAbsorbsInEveryCycle := by
  intro s b n rest hp
  rw [replicate_held_valid] at hp
  simpa using runSteps_of_updates hp

/-! ### Restoring a value -/

/-- START leaves `v` exactly where its byte, absorbed into 0x00, gives `v`. -/
theorem exec_start_eq_next_iff {b v : Byte} {s : State} :
    exec (.start b) s = .next { s with acc := v } ↔ byteStep 0x00#8 b = v := by
  simp

/-- Settles O38: from 0x00 every value is reached by exactly one byte. -/
theorem oneStartRestoresAnyValue : Obligations.OneStartRestoresAnyValue := by
  intro v
  obtain ⟨b, hb⟩ : ∃ b, byteStep 0x00#8 b = v := (byteStep_bijective_of_acc 0x00#8).surjective v
  refine ⟨b, fun s => exec_start_eq_next_iff.2 hb, fun b' ⟨s, hs⟩ => ?_⟩
  exact (byteStep_bijective_of_acc 0x00#8).injective ((exec_start_eq_next_iff.1 hs).trans hb.symm)

/-! ### The cycles of a message -/

theorem length_messageAfter (opening : Instr) (bytes : List Byte) :
    (wordsOf (messageAfter opening bytes)).length = bytes.length + 1 :=
  congrArg (· + 1) (length_updates bytes)

/-- Settles O40: each sequence carries its message, and its run takes as many cycles as it has words. -/
theorem cyclesOfAMessage : Obligations.CyclesOfAMessage := by
  refine ⟨fun _ => length_messageWords, rfl, fun bytes => ⟨length_messageAfter _ bytes, length_messageAfter _ bytes⟩,
    fun s bytes rest hne hp => ?_, fun s rest hp => runSteps_of_carriedMessage (carriedMessage_messageWords []) hp,
    fun s opening bytes rest hopening hp => ?_⟩
  · rw [← length_messageWords hne]
    exact runSteps_of_carriedMessage (carriedMessage_messageWords bytes) hp
  · rw [← length_messageAfter opening bytes]
    exact runSteps_of_carriedMessage (carriedMessage_messageAfter hopening.symm bytes) hp

/-! ### The invariant at the start -/

/-- Counted from now, every state is on course for what its listed words give. -/
theorem onCourse_of_listed (s : State) : OnCourse (runWords s.acc s.pending) s.drawn s :=
  ⟨le_rfl, fun _ => rfl⟩

/-- Settles O42: the reset state lists no word, so the run over its words is the 0x00 it holds. -/
theorem runsBeginOnCourse : Obligations.RunsBeginOnCourse :=
  ⟨onCourse_of_listed State.reset, onCourse_of_listed⟩

end Sys2Proof.Machine
